-- ==== Sys2Proof/Word.lean ====
section
/-! DEFINITION. The words the spec treats as bits (00_scope.md R4, R8) and the register index. -/

namespace Sys2Proof

/-- One byte: a memory cell, a general register, an `NN` immediate. -/
abbrev Byte := BitVec 8

/-- Sixteen bits: an opcode, `PC`, `I`, a stack entry. -/
abbrev Word := BitVec 16

/-- Four bits: an opcode nibble, the row count `N`. -/
abbrev Nibble := BitVec 4

/-- Twelve bits: the address immediate `NNN`. -/
abbrev Addr12 := BitVec 12

/-- The index of a general register: "always in [0,15]" (10_state.md R10). -/
abbrev Reg := Fin 16

end Sys2Proof
end

