-- ==== Sys2Proof/Syntax.lean ====
section
/-! DEFINITION. The twelve instructions of 30_encoding.md R54, one constructor per row of the opcode table, and the
operand fields of R51. -/

namespace Sys2Proof

/-- The instruction set, in the table's order (00_scope.md R2, 30_encoding.md R54). -/
inductive Instr
  /-- `00E0`: clear the display. -/
  | cls
  /-- `00EE`: return from subroutine. -/
  | ret
  /-- `1NNN`: jump. -/
  | jp (nnn : Addr12)
  /-- `2NNN`: call subroutine. -/
  | call (nnn : Addr12)
  /-- `3XNN`: skip if `V[X] = NN`. -/
  | seVxNn (x : Reg) (nn : Byte)
  /-- `4XNN`: skip if `V[X] ≠ NN`. -/
  | sneVxNn (x : Reg) (nn : Byte)
  /-- `5XY0`: skip if `V[X] = V[Y]`. -/
  | seVxVy (x y : Reg)
  /-- `6XNN`: load a byte. -/
  | ldVxNn (x : Reg) (nn : Byte)
  /-- `7XNN`: add a byte, no carry. -/
  | addVxNn (x : Reg) (nn : Byte)
  /-- `9XY0`: skip if `V[X] ≠ V[Y]`. -/
  | sneVxVy (x y : Reg)
  /-- `ANNN`: load the index register. -/
  | ldINnn (nnn : Addr12)
  /-- `DXYN`: draw an `N`-row sprite. -/
  | drw (x y : Reg) (n : Nibble)
  deriving DecidableEq, Repr

/-- The operand fields the decoder cuts (30_encoding.md R51). -/
inductive Field
  | x | y | n | nn | nnn
  deriving DecidableEq, Repr

/-- A field's lowest bit (R51). -/
def Field.lo : Field → Nat
  | .x => 8
  | .y => 4
  | .n => 0
  | .nn => 0
  | .nnn => 0

/-- A field's width in bits (R51). -/
def Field.width : Field → Nat
  | .x => 4
  | .y => 4
  | .n => 4
  | .nn => 8
  | .nnn => 12

/-- An operand as a number written in a field. -/
structure Operand where
  field : Field
  value : Nat
  deriving DecidableEq, Repr

/-- An instruction's operands, field by field (the `fields` of its row in the opcode table). -/
def Instr.operands : Instr → List Operand
  | .cls => []
  | .ret => []
  | .jp nnn => [⟨.nnn, nnn.toNat⟩]
  | .call nnn => [⟨.nnn, nnn.toNat⟩]
  | .seVxNn x nn => [⟨.x, x.val⟩, ⟨.nn, nn.toNat⟩]
  | .sneVxNn x nn => [⟨.x, x.val⟩, ⟨.nn, nn.toNat⟩]
  | .seVxVy x y => [⟨.x, x.val⟩, ⟨.y, y.val⟩]
  | .ldVxNn x nn => [⟨.x, x.val⟩, ⟨.nn, nn.toNat⟩]
  | .addVxNn x nn => [⟨.x, x.val⟩, ⟨.nn, nn.toNat⟩]
  | .sneVxVy x y => [⟨.x, x.val⟩, ⟨.y, y.val⟩]
  | .ldINnn nnn => [⟨.nnn, nnn.toNat⟩]
  | .drw x y n => [⟨.x, x.val⟩, ⟨.y, y.val⟩, ⟨.n, n.toNat⟩]

end Sys2Proof
end

