-- ==== Sys2Proof/WellFormed.lean ====
section
/-! DEFINITION. Well-formedness: every operand fits its field (30_encoding.md R51, R53). The constructors' types are
exactly as wide as the fields, so every instruction is well formed (Laws/PerInstr.lean proves it); the check on an
operand written as a number is what refuses a register 16 or a byte 256. -/

namespace Sys2Proof

/-- The operand fits its field: every value the field can hold is legal, and no other (R51, R53). -/
def Operand.fits (o : Operand) : Bool :=
  o.value < 2 ^ o.field.width

/-- Every operand of the instruction fits its field. -/
def Instr.wellFormed (i : Instr) : Bool :=
  i.operands.all Operand.fits

end Sys2Proof
end

