-- ==== Sys2Proof/Decode.lean ====
section
/-! DEFINITION. The decoder, total on every 16-bit value and on every byte sequence (30_encoding.md R50 to R60), and
after it the encoder, written from the same table (R52, R54). -/

namespace Sys2Proof

/-- The outcome of decoding one opcode (30_encoding.md R55). -/
inductive Decoded
  /-- One of the twelve instructions of R54. -/
  | instruction (i : Instr)
  /-- None of them, with the opcode that was rejected: R58. -/
  | unrecognized (opcode : Word)
  deriving DecidableEq, Repr

/-- The field `op`, bits 15 to 12 (R51). -/
def fieldOp (w : Word) : Nibble := w.extractLsb' 12 4

/-- The field `X`, bits 11 to 8 (R51). -/
def fieldX (w : Word) : Reg := (w.extractLsb' 8 4).toFin

/-- The field `Y`, bits 7 to 4 (R51). -/
def fieldY (w : Word) : Reg := (w.extractLsb' 4 4).toFin

/-- The field `N`, bits 3 to 0 (R51). -/
def fieldN (w : Word) : Nibble := w.extractLsb' 0 4

/-- The field `NN`, bits 7 to 0 (R51). -/
def fieldNN (w : Word) : Byte := w.extractLsb' 0 8

/-- The field `NNN`, bits 11 to 0 (R51). -/
def fieldNNN (w : Word) : Addr12 := w.extractLsb' 0 12

/-- Family `op = 0`: only the two full values are instructions (30_encoding.md R57). -/
def decodeFamily0 (w : Word) : Decoded :=
  if w = 0x00E0#16 then .instruction .cls
  else if w = 0x00EE#16 then .instruction .ret
  else .unrecognized w

/-- Families `op = 5` and `op = 9`: the low nibble is part of the match (30_encoding.md R59, the spec's decision D7). -/
def decodeXY (w : Word) (i : Instr) : Decoded :=
  if fieldN w = 0#4 then .instruction i else .unrecognized w

/-- Decode one opcode: dispatch on `op`, then on the rest where a family needs it (30_encoding.md R55, R56). -/
def decode (w : Word) : Decoded :=
  match (fieldOp w).toNat with
  | 0x0 => decodeFamily0 w
  | 0x1 => .instruction (.jp (fieldNNN w))
  | 0x2 => .instruction (.call (fieldNNN w))
  | 0x3 => .instruction (.seVxNn (fieldX w) (fieldNN w))
  | 0x4 => .instruction (.sneVxNn (fieldX w) (fieldNN w))
  | 0x5 => decodeXY w (.seVxVy (fieldX w) (fieldY w))
  | 0x6 => .instruction (.ldVxNn (fieldX w) (fieldNN w))
  | 0x7 => .instruction (.addVxNn (fieldX w) (fieldNN w))
  | 0x9 => decodeXY w (.sneVxVy (fieldX w) (fieldY w))
  | 0xA => .instruction (.ldINnn (fieldNNN w))
  | 0xD => .instruction (.drw (fieldX w) (fieldY w) (fieldN w))
  | _ => .unrecognized w

/-- Two consecutive bytes as an opcode, the first (lower address) the high byte (20_memory.md R33). -/
def opcodeOfBytes (hi lo : Byte) : Word := hi ++ lo

/-- The first byte of an opcode as memory stores it (20_memory.md R33). -/
def opcodeHi (w : Word) : Byte := w.extractLsb' 8 8

/-- The second byte of an opcode as memory stores it (20_memory.md R33). -/
def opcodeLo (w : Word) : Byte := w.extractLsb' 0 8

/-- Decode the first instruction of a byte sequence and return the rest of it; none where there are fewer than the two
bytes that every instruction has (R50). -/
def decodeBytes : List Byte → Option (Decoded × List Byte)
  | hi :: lo :: rest => some (decode (opcodeOfBytes hi lo), rest)
  | _ => none

/-- Format `A`: `op`, `NNN` (R52). -/
def packA (op : Nibble) (nnn : Addr12) : Word := op ++ nnn

/-- Format `XB`: `op`, `X`, `NN` (R52). -/
def packXB (op : Nibble) (x : Reg) (nn : Byte) : Word := op ++ (BitVec.ofFin x : Nibble) ++ nn

/-- Formats `XY` and `XYN`: `op`, `X`, `Y` and the low nibble, which format `XY` fixes at 0 (R52). -/
def packXYN (op : Nibble) (x y : Reg) (n : Nibble) : Word :=
  op ++ (BitVec.ofFin x : Nibble) ++ (BitVec.ofFin y : Nibble) ++ n

/-- The encoding of an instruction (30_encoding.md R52, R54). -/
def encode : Instr → Word
  | .cls => 0x00E0#16
  | .ret => 0x00EE#16
  | .jp nnn => packA 0x1#4 nnn
  | .call nnn => packA 0x2#4 nnn
  | .seVxNn x nn => packXB 0x3#4 x nn
  | .sneVxNn x nn => packXB 0x4#4 x nn
  | .seVxVy x y => packXYN 0x5#4 x y 0#4
  | .ldVxNn x nn => packXB 0x6#4 x nn
  | .addVxNn x nn => packXB 0x7#4 x nn
  | .sneVxVy x y => packXYN 0x9#4 x y 0#4
  | .ldINnn nnn => packA 0xA#4 nnn
  | .drw x y n => packXYN 0xD#4 x y n

/-- The mask of the instruction's row in the opcode table (30_encoding.md R54). -/
def Instr.rowMask : Instr → Word
  | .cls => 0xFFFF#16
  | .ret => 0xFFFF#16
  | .seVxVy _ _ => 0xF00F#16
  | .sneVxVy _ _ => 0xF00F#16
  | .jp _ => 0xF000#16
  | .call _ => 0xF000#16
  | .seVxNn _ _ => 0xF000#16
  | .sneVxNn _ _ => 0xF000#16
  | .ldVxNn _ _ => 0xF000#16
  | .addVxNn _ _ => 0xF000#16
  | .ldINnn _ => 0xF000#16
  | .drw _ _ _ => 0xF000#16

/-- The match of the instruction's row in the opcode table (30_encoding.md R54). -/
def Instr.rowMatch : Instr → Word
  | .cls => 0x00E0#16
  | .ret => 0x00EE#16
  | .jp _ => 0x1000#16
  | .call _ => 0x2000#16
  | .seVxNn _ _ => 0x3000#16
  | .sneVxNn _ _ => 0x4000#16
  | .seVxVy _ _ => 0x5000#16
  | .ldVxNn _ _ => 0x6000#16
  | .addVxNn _ _ => 0x7000#16
  | .sneVxVy _ _ => 0x9000#16
  | .ldINnn _ => 0xA000#16
  | .drw _ _ _ => 0xD000#16

/-- The opcode that an instruction of `nbits` bits with value `w` has in the opcode table's numbering: bit 0 is the
opcode's least significant bit, and bits above `nbits` are 0. -/
def tableOpcode (nbits w : Nat) : Word := BitVec.ofNat 16 (w % 2 ^ nbits)

/-- The instruction the decoder reads from a table word laid out in memory order, high byte first. -/
def decodeTableWord (nbits w : Nat) : Option Instr :=
  match decodeBytes [opcodeHi (tableOpcode nbits w), opcodeLo (tableOpcode nbits w)] with
  | some (.instruction i, _) => some i
  | some (.unrecognized _, _) => none
  | none => none

end Sys2Proof
end

