-- ==== Sys2Proof/Config.lean ====
section
/-! DEFINITION. The parameters of 00_scope.md R4 that the rules name, all fixed by the source, and the one value
the spec leaves without a statement. The font table, which a test can show wrong, stands in Machine/Memory.lean. -/

namespace Sys2Proof

/-- `MEM_SIZE`: valid addresses are 0x000 to 0xFFF (R4, 20_memory.md R30). -/
@[simp] def Config.memSize : Nat := 4096

/-- `FONT_BASE` (R4). -/
@[simp] def Config.fontBase : Nat := 0x050

/-- `FONT_GLYPHS × GLYPH_BYTES` (R4). -/
@[simp] def Config.fontBytes : Nat := 80

/-- `PROG_BASE`: load address and entry point (R4). -/
@[simp] def Config.progBase : Nat := 0x200

/-- `MAX_IMAGE`: longer images are truncated (R4, 70_reset_and_hazards.md R151). -/
@[simp] def Config.maxImage : Nat := 3584

/-- The highest address an instruction can be fetched from (40_step_cycle.md R71). -/
@[simp] def Config.lastFetch : Nat := 0xFFE

/-- `STACK_DEPTH` (R4). -/
@[simp] def Config.stackDepth : Nat := 16

/-- FREE VALUE. What a pop returns when `SP` is above 16, where the 16-entry array has no entry to read
(10_state.md R14: the legal range is 0 to 16; 41_control_flow.md R81 states no result there). Unreachable from reset.
DESIGN CHOICE, safe: notes/assumptions/3.md. -/
opaque Config.absentStackEntry : BitVec 8 → Word

end Sys2Proof
end

