-- ==== Sys2Proof/Machine/State.lean ====
section
/-! DEFINITION. The machine's state, all of 10_state.md R10 to R21 and nothing else (R22), its value after reset
(R23), and the reasons a step can stop. Plain data. -/

namespace Sys2Proof.Machine

/-- The causes of a trap and the value `NONE` of a core that has not trapped (60_exceptions.md R121). -/
inductive TrapCause
  | none
  | unrecognizedOpcode
  | stackOverflow
  | stackUnderflow
  | fetchOutOfRange
  | drawSourceOutOfRange
  deriving DecidableEq, Repr

/-- The numeric code that `TRAP_CAUSE`, 3 bits wide, holds for a cause (60_exceptions.md R121, the spec's decision D3). -/
def TrapCause.code : TrapCause → BitVec 3
  | .none => 0#3
  | .unrecognizedOpcode => 1#3
  | .stackOverflow => 2#3
  | .stackUnderflow => 3#3
  | .fetchOutOfRange => 4#3
  | .drawSourceOutOfRange => 5#3

/-- The memory as the cells that differ from their reset contents, by rising address (20_memory.md R30;
notes/assumptions/16.md). `Memory.wf` in Machine/Memory.lean is its canonical form. -/
abbrev Memory := List Host.Cell

/-- The display buffer: `d[y][x]`, 32 rows of 64 cells, true when the cell is set (10_state.md R19). -/
abbrev Display := Vector (Vector Bool 64) 32

/-- All the state the spec gives the machine (10_state.md R10 to R21). -/
structure State where
  /-- V0 to VF (R10); `v[15]` is VF (R11). -/
  v : Vector Byte 16
  /-- The index register (R12). -/
  i : Word
  /-- The program counter (R13). -/
  pc : Word
  /-- The stack pointer, the number of live entries (R14). -/
  sp : Byte
  /-- The call stack, disjoint from memory (R15). -/
  stack : Vector Word 16
  /-- The delay timer (R16). -/
  dt : Byte
  /-- The sound timer (R16). -/
  st : Byte
  /-- The key state, true when the host says the key is down (R17). -/
  keys : Vector Bool 16
  /-- The memory (R18). -/
  mem : Memory
  /-- The display buffer (R19). -/
  disp : Display
  /-- The dirty flag (R20). -/
  dirty : Bool
  /-- `TRAP_CAUSE` of the trap latch (R21). -/
  trapCause : TrapCause
  /-- `TRAP_INFO` of the trap latch (R21). -/
  trapInfo : Word
  deriving DecidableEq, Repr

/-- The state after `RESET`: every piece of state has the value of 10_state.md R23. The memory lists nothing: an
unlisted cell reads as its reset contents, zero or the font (Machine/Memory.lean). -/
def State.reset : State where
  v := Vector.replicate 16 0#8
  i := 0#16
  pc := 0#16
  sp := 0#8
  stack := Vector.replicate 16 0#16
  dt := 0#8
  st := 0#8
  keys := Vector.replicate 16 false
  mem := []
  disp := Vector.replicate 32 (Vector.replicate 64 false)
  dirty := false
  trapCause := .none
  trapInfo := 0#16

/-- Why a step stops. -/
inductive Fault
  /-- Raised by `step`, and by nothing else, when the trap latch is set: the halted core changes no state and its
  `STEP` returns `Err(TRAP_CAUSE, TRAP_INFO)`, which this constructor carries (40_step_cycle.md R70, 60_exceptions.md
  R123: "for a model, the trapped state is a fault"). No instruction raises it: a trap itself is taken, as a next state.
  Safe: the model stops where the hardware does nothing more (notes/assumptions/1.md). -/
  | trapped (cause : TrapCause) (info : Word)
  deriving DecidableEq, Repr

/-- Why a step has no meaning in the model. -/
inductive Refusal
  /-- For an instruction of the table without a meaning yet; no arm of `exec` answers it. Safe. -/
  | notModelled (mnemonic : String)
  deriving DecidableEq, Repr

/-- The outcome of a step or of a meaning. -/
abbrev Result := Host.Outcome State Fault Refusal

/-- What the operation `STEP` returns to the host (00_scope.md R9, 40_step_cycle.md R76). -/
inductive StepReturn
  | ok
  | err (cause : TrapCause) (info : Word)
  deriving DecidableEq, Repr

end Sys2Proof.Machine
end

