-- ==== Sys2Proof/Machine/Memory.lean ====
section
/-! DEFINITION. The one memory (20_memory.md R30 to R38): its reset contents with the font (10_state.md R23, R24), its
canonical form, the one-byte read and write of 00_scope.md R9, and the wider reads built from the byte read. -/

namespace Sys2Proof.Machine

/-- Glyphs 0 to 7 of the font, five bytes each, top row first (10_state.md R24). -/
def fontLow : List Byte :=
  [0xF0, 0x90, 0x90, 0x90, 0xF0] ++ [0x20, 0x60, 0x20, 0x20, 0x70] ++
  [0xF0, 0x10, 0xF0, 0x80, 0xF0] ++ [0xF0, 0x10, 0xF0, 0x10, 0xF0] ++
  [0x90, 0x90, 0xF0, 0x10, 0x10] ++ [0xF0, 0x80, 0xF0, 0x10, 0xF0] ++
  [0xF0, 0x80, 0xF0, 0x90, 0xF0] ++ [0xF0, 0x10, 0x20, 0x40, 0x40]

/-- Glyphs 8 to F of the font (10_state.md R24). -/
def fontHigh : List Byte :=
  [0xF0, 0x90, 0xF0, 0x90, 0xF0] ++ [0xF0, 0x90, 0xF0, 0x10, 0xF0] ++
  [0xF0, 0x90, 0xF0, 0x90, 0x90] ++ [0xE0, 0x90, 0xE0, 0x90, 0xE0] ++
  [0xF0, 0x80, 0x80, 0x80, 0xF0] ++ [0xE0, 0x90, 0x90, 0x90, 0xE0] ++
  [0xF0, 0x80, 0xF0, 0x80, 0xF0] ++ [0xF0, 0x80, 0xF0, 0x80, 0x80]

/-- `FONT`: the 80 bytes of 10_state.md R24. PRESUMED: the spec gives the table from general knowledge, as the default
of its parameter (00_scope.md R5, 92_eei_decisions.md D12); unsafe, notes/assumptions/2.md. -/
def font : List Byte := fontLow ++ fontHigh

/-- What a cell holds after `RESET`: a font byte at 0x050 to 0x09F, else 0 (10_state.md R23). This is what an unlisted
address of `Memory` reads as. -/
def resetByte (a : Nat) : Byte :=
  if Config.fontBase ≤ a ∧ a < Config.fontBase + Config.fontBytes then font.getD (a - Config.fontBase) 0#8 else 0#8

/-- The canonical form: addresses strictly rising and inside the memory, no entry equal to the reset contents. -/
abbrev Memory.wf (m : Memory) : Prop :=
  m.Pairwise (fun p q => p.1 < q.1) ∧ ∀ p ∈ m, p.1 < Config.memSize ∧ p.2 ≠ resetByte p.1

/-- The content of the cell `a`: its entry, or its reset contents where it has none. -/
def Memory.cell : Memory → Nat → Byte
  | [], a => resetByte a
  | (k, b) :: m, a => if a = k then b else Memory.cell m a

/-- `MemRead(a, 1)`: the byte at `a`, or none where the memory has no such address (00_scope.md R9, 20_memory.md R30,
R37: an address above 0xFFF is out of range and does not wrap). -/
def Memory.read? (m : Memory) (a : Nat) : Option Byte :=
  if a < Config.memSize then some (m.cell a) else none

/-- The list that holds the cell `a` with content `b`: empty where `b` is the reset contents. -/
def Memory.entry (a : Nat) (b : Byte) : Memory :=
  if b = resetByte a then [] else [(a, b)]

/-- Put `b` at `a`, keeping the canonical form. -/
def Memory.put : Memory → Nat → Byte → Memory
  | [], a, b => Memory.entry a b
  | (k, c) :: m, a, b =>
    if a < k then Memory.entry a b ++ (k, c) :: m
    else if a = k then Memory.entry a b ++ m
    else (k, c) :: Memory.put m a b

/-- `MemWrite(a, 1, b)` (00_scope.md R9). Used by `RESET` and `LOAD` only, always inside the memory (20_memory.md R36);
outside it there is no cell and nothing is written (notes/assumptions/19.md). -/
def Memory.write (m : Memory) (a : Nat) (b : Byte) : Memory :=
  if a < Config.memSize then m.put a b else m

/-- Write a byte sequence to consecutive addresses from `a` up. -/
def Memory.writeBytes : Memory → Nat → List Byte → Memory
  | m, _, [] => m
  | m, a, b :: bs => Memory.writeBytes (m.write a b) (a + 1) bs

/-- The two-byte fetch at `p`: none where `p > 0xFFE`, else `MEM[p] ++ MEM[p + 1]` (20_memory.md R33, R37;
40_step_cycle.md R71). -/
def Memory.fetch? (m : Memory) (p : Nat) : Option Word :=
  if p > Config.lastFetch then none
  else match m.read? p, m.read? (p + 1) with
    | some hi, some lo => some (opcodeOfBytes hi lo)
    | _, _ => none

/-- The bytes at `a` to `a + n - 1`, by `n` one-byte reads (20_memory.md R35), or none where one of them does not
exist. -/
def Memory.readBytes? (m : Memory) (a : Nat) : Nat → Option (List Byte)
  | 0 => some []
  | n + 1 => match m.read? a, Memory.readBytes? m (a + 1) n with
    | some b, some bs => some (b :: bs)
    | _, _ => none

end Sys2Proof.Machine
end

