-- ==== Sys2Proof/Machine/Ops.lean ====
section
/-! DEFINITION. The named operations over registers, stack, display and trap latch, and the stages of a step outside
its instruction. Each says which rule it follows; the meanings are written over these. -/

namespace Sys2Proof.Machine

/-! ## Single updates -/

/-- `V[x] <- b` (10_state.md R10). No register is hard-wired. -/
def State.setV (s : State) (x : Reg) (b : Byte) : State := { s with v := s.v.set x.val b }

/-- `I <- w` (10_state.md R12). -/
def State.setI (s : State) (w : Word) : State := { s with i := w }

/-- `PC <- w` (00_scope.md R9). -/
def State.setPc (s : State) (w : Word) : State := { s with pc := w }

/-- `SP <- b` (10_state.md R14). -/
def State.setSp (s : State) (b : Byte) : State := { s with sp := b }

/-- `STACK[j] <- w` (10_state.md R15). -/
def State.setStack (s : State) (j : Fin 16) (w : Word) : State := { s with stack := s.stack.set j.val w }

/-- Replace the display buffer (10_state.md R19). -/
def State.setDisp (s : State) (d : Display) : State := { s with disp := d }

/-- `DIRTY <- b` (10_state.md R20). -/
def State.setDirty (s : State) (b : Bool) : State := { s with dirty := b }

/-- Replace the memory; only `RESET` and `LOAD` do (20_memory.md R36). -/
def State.setMem (s : State) (m : Memory) : State := { s with mem := m }

/-- `DT <- b`, the host's timer port only (60_exceptions.md R133). -/
def State.setDt (s : State) (b : Byte) : State := { s with dt := b }

/-- `ST <- b`, the host's timer port only (60_exceptions.md R133). -/
def State.setSt (s : State) (b : Byte) : State := { s with st := b }

/-- `KEYS[k] <- b`, the host's key port only (60_exceptions.md R132). -/
def State.setKey (s : State) (k : Fin 16) (b : Bool) : State := { s with keys := s.keys.set k.val b }

/-- Both registers of the trap latch (10_state.md R21). -/
def State.setTrap (s : State) (cause : TrapCause) (info : Word) : State :=
  { s with trapCause := cause, trapInfo := info }

/-- `V[x]` (10_state.md R10). -/
def State.readV (s : State) (x : Reg) : Byte := s.v[x.val]

/-- VF, the collision flag (10_state.md R11). -/
def regVF : Reg := 15

/-! ## Taking a trap -/

/-- `raise Trap(cause, info)` (60_exceptions.md R122): the latch is written, and nothing else: no state is saved, `PC` is
not redirected, no mode changes. The step stops there, so this is the whole rest of the step (a next state, whose latch
is what the host reads). There is no return from a trap (R128); `RESET` alone clears the latch (R123). -/
def raiseTrap (cause : TrapCause) (info : Word) (s : State) : Result :=
  .next (s.setTrap cause info)

/-! ## Stages 0 and 1 of a step -/

/-- Stage 0: `DIRTY <- false` (40_step_cycle.md R70). -/
def beginStep (s : State) : State := s.setDirty false

/-- Stage 1, fetch: the opcode at `PC`, or none where `PC > 0xFFE` (40_step_cycle.md R71). -/
def fetchOpcode? (s : State) : Option Word := s.mem.fetch? s.pc.toNat

/-- Stage 1, advance: `PC <- (PC + 2) mod 65536` (40_step_cycle.md R72). -/
def advancePc (s : State) : State := s.setPc (s.pc + 2#16)

/-! ## Control transfer -/

/-- Skip the next instruction: `PC <- (PC + 2) mod 65536` on the already advanced `PC` (42_skips.md R90). -/
def skipNext (s : State) : State := s.setPc (s.pc + 2#16)

/-- The conditional skip (42_skips.md R90). -/
def skipIf (c : Bool) (s : State) : State := if c then skipNext s else s

/-- `Push(v)`: none where the stack is full (41_control_flow.md R80). -/
def push? (w : Word) (s : State) : Option State :=
  if h : s.sp.toNat < 16 then some ((s.setStack ⟨s.sp.toNat, h⟩ w).setSp (s.sp + 1#8)) else none

/-- The entry `STACK[j]`. Where the array has no entry `j`, which only an `SP` above 16 asks for, the free value of
notes/assumptions/3.md. -/
def stackEntry (s : State) (j : Byte) : Word :=
  if h : j.toNat < 16 then s.stack[j.toNat] else Config.absentStackEntry j

/-- `Pop()`: none where the stack is empty; else `SP <- SP - 1` and the entry `STACK[SP]`, which keeps its value
(41_control_flow.md R81). -/
def pop? (s : State) : Option (Word × State) :=
  if s.sp = 0#8 then none else some (stackEntry s (s.sp - 1#8), s.setSp (s.sp - 1#8))

/-! ## The display engine -/

/-- `DISP[y][x]` (10_state.md R19). -/
def Display.cell (d : Display) (x : Fin 64) (y : Fin 32) : Bool := d[y.val][x.val]

/-- The XOR flip `DISP[y][x] <- DISP[y][x] xor true` (44_display.md R110). -/
def Display.flip (d : Display) (x : Fin 64) (y : Fin 32) : Display :=
  d.set y.val (d[y.val].set x.val (d[y.val][x.val] ^^ true))

/-- The display with all 2048 cells false (44_display.md R111). -/
def Display.clear : Display := Vector.replicate 32 (Vector.replicate 64 false)

/-- A draw under way: the display, and whether a set cell has been flipped. -/
structure Painting where
  disp : Display
  hit : Bool
  deriving DecidableEq, Repr

/-- One sprite bit of 1 on cell `(x, y)`: remember whether the cell was set, then flip it (44_display.md R112). -/
def paintCell (p : Painting) (x : Fin 64) (y : Fin 32) : Painting :=
  { disp := Display.flip p.disp x y, hit := p.hit || Display.cell p.disp x y }

/-- The column loop of 44_display.md R112 over the columns `cs` of a row byte `b`: stop at the right edge, and flip the
cell of each 1 bit, bit `7 - c` being column `x0 + c`. -/
def paintColumns (b : Byte) (x0 : Nat) (y : Fin 32) : List Nat → Painting → Painting
  | [], p => p
  | c :: cs, p =>
    if h : x0 + c < 64 then
      paintColumns b x0 y cs (if b.getLsbD (7 - c) then paintCell p ⟨x0 + c, h⟩ y else p)
    else p

/-- The row loop of 44_display.md R112, from row `y` down: stop at the bottom edge; each row runs over its columns 0 to
7, bit 7 first. -/
def paintRows (x0 : Nat) : Nat → List Byte → Painting → Painting
  | _, [], p => p
  | y, b :: bs, p =>
    if h : y < 32 then paintRows x0 (y + 1) bs (paintColumns b x0 ⟨y, h⟩ [0, 1, 2, 3, 4, 5, 6, 7] p) else p

end Sys2Proof.Machine
end

