-- ==== Sys2Proof/Machine/Operands.lean ====
section
/-! DEFINITION. Every operand form of the instruction set (20_memory.md R44, 30_encoding.md R53): immediates, the sprite
anchor, the sprite's source bytes. -/

namespace Sys2Proof.Machine

/-- `zext_16(NNN)`, the absolute target of `1NNN` and `2NNN` and the value of `ANNN` (30_encoding.md R53). -/
def addressOperand (nnn : Addr12) : Word := nnn.setWidth 16

/-- The column of a sprite's anchor, `V[X] mod 64` (44_display.md R112). -/
def anchorColumn (x : Reg) (s : State) : Nat := (s.readV x).toNat % 64

/-- The row of a sprite's anchor, `V[Y] mod 32` (44_display.md R112). -/
def anchorRow (y : Reg) (s : State) : Nat := (s.readV y).toNat % 32

/-- The sprite's `n` rows, the bytes at `I` to `I + n - 1`, or none where `I + n > 4096`, whatever clipping would have
kept from being read (44_display.md R112; the sum is taken in unbounded integers, 92_eei_decisions.md D9, D21). -/
def spriteRows? (n : Nat) (s : State) : Option (List Byte) :=
  if s.i.toNat + n > Config.memSize then none else s.mem.readBytes? s.i.toNat n

end Sys2Proof.Machine
end

