-- ==== Sys2Proof/Machine/Flags.lean ====
section
/-! DEFINITION. The one flag computation of the instruction set: VF as the collision flag of `DXYN` (10_state.md R11).
`7XNN` writes no flag (43_load_add.md R101), and no instruction reads one. -/

namespace Sys2Proof.Machine

/-- The collision flag's value: 1 if a flipped cell was set before its flip, else 0 (44_display.md R112). -/
def collisionFlag (hit : Bool) : Byte := if hit then 1#8 else 0#8

/-- Write the collision flag to VF. -/
def setCollision (hit : Bool) (s : State) : State := s.setV regVF (collisionFlag hit)

end Sys2Proof.Machine
end

