-- ==== Sys2Proof/Machine/Control.lean ====
section
/-! DEFINITION. Return, jump and call (41_control_flow.md). On entry `PC` is already the instruction's address plus 2. -/

namespace Sys2Proof.Machine

/-- `00EE` (R82): `PC <- Pop()`; the popped value is used as it is. An empty stack traps before any write. -/
def execRet (s : State) : Result :=
  match pop? s with
  | some (target, s') => .next (s'.setPc target)
  | none => raiseTrap .stackUnderflow (encode .ret) s

/-- `1NNN` (R83): `PC <- zext_16(NNN)`. -/
def execJp (nnn : Addr12) (s : State) : Result :=
  .next (s.setPc (addressOperand nnn))

/-- `2NNN` (R84): `Push(PC)`, then `PC <- zext_16(NNN)`. A full stack traps before any write. -/
def execCall (nnn : Addr12) (s : State) : Result :=
  match push? s.pc s with
  | some s' => .next (s'.setPc (addressOperand nnn))
  | none => raiseTrap .stackOverflow (encode (.call nnn)) s

end Sys2Proof.Machine
end

