-- ==== Sys2Proof/Machine/Draw.lean ====
section
/-! DEFINITION. The two instructions that write the display (44_display.md). -/

namespace Sys2Proof.Machine

/-- `00E0` (R111): every cell false, `DIRTY <- true`; VF is not touched. -/
def execCls (s : State) : Result :=
  .next ((s.setDisp Display.clear).setDirty true)

/-- The draw of `rows` at the anchor: the loops of R112 from `VF = 0`, then VF, the display and `DIRTY`. The anchor's
registers are read from the state before VF is written (92_eei_decisions.md D10, notes/assumptions/7.md). -/
def drawSprite (x y : Reg) (rows : List Byte) (s : State) : State :=
  let p := paintRows (anchorColumn x s) (anchorRow y s) rows { disp := s.disp, hit := false }
  ((setCollision p.hit s).setDisp p.disp).setDirty true

/-- `DXYN` (R112): the source range is tested before any write. -/
def execDrw (x y : Reg) (n : Nibble) (s : State) : Result :=
  match spriteRows? n.toNat s with
  | some rows => .next (drawSprite x y rows s)
  | none => raiseTrap .drawSourceOutOfRange (encode (.drw x y n)) s

end Sys2Proof.Machine
end

