-- ==== Sys2Proof/Machine/LoadAdd.lean ====
section
/-! DEFINITION. Register load, register add and index load (43_load_add.md). -/

namespace Sys2Proof.Machine

/-- `6XNN` (R100): `V[X] <- NN`. -/
def execLdVxNn (x : Reg) (nn : Byte) (s : State) : Result :=
  .next (s.setV x nn)

/-- `7XNN` (R101): `V[X] <- (V[X] + NN) mod 256`; no flag is written on the side. -/
def execAddVxNn (x : Reg) (nn : Byte) (s : State) : Result :=
  .next (s.setV x (s.readV x + nn))

/-- `ANNN` (R102): `I <- zext_16(NNN)`. -/
def execLdINnn (nnn : Addr12) (s : State) : Result :=
  .next (s.setI (addressOperand nnn))

end Sys2Proof.Machine
end

