-- ==== Sys2Proof/Machine/Skips.lean ====
section
/-! DEFINITION. The four conditional skips (42_skips.md). -/

namespace Sys2Proof.Machine

/-- `3XNN` (R91): skip if `V[X] = NN`. -/
def execSeVxNn (x : Reg) (nn : Byte) (s : State) : Result :=
  .next (skipIf (s.readV x == nn) s)

/-- `4XNN` (R92): skip if `V[X] ≠ NN`. -/
def execSneVxNn (x : Reg) (nn : Byte) (s : State) : Result :=
  .next (skipIf (s.readV x != nn) s)

/-- `5XY0` (R93): skip if `V[X] = V[Y]`. -/
def execSeVxVy (x y : Reg) (s : State) : Result :=
  .next (skipIf (s.readV x == s.readV y) s)

/-- `9XY0` (R94): skip if `V[X] ≠ V[Y]`. -/
def execSneVxVy (x y : Reg) (s : State) : Result :=
  .next (skipIf (s.readV x != s.readV y) s)

end Sys2Proof.Machine
end

