-- ==== Sys2Proof/Machine/Stages.lean ====
section
/-! DEFINITION. Stages 1 to 3 of a step as one function, what the step returns to the host, and the placing of an
instruction where the next step fetches it (40_step_cycle.md). Step.lean calls these. -/

namespace Sys2Proof.Machine

/-- Stages 2 and 3 on a fetched opcode, `PC` being advanced (40_step_cycle.md R73, R74): the decoded instruction runs,
and an unrecognised opcode traps with the opcode as its info. -/
def runOpcode (w : Word) (s : State) : Result :=
  match decode w with
  | .instruction i => exec i s
  | .unrecognized opcode => raiseTrap .unrecognizedOpcode opcode s

/-- The step of a core whose latch is clear, in the order of 40_step_cycle.md R76. -/
def runStep (s : State) : Result :=
  match fetchOpcode? (beginStep s) with
  | none => raiseTrap .fetchOutOfRange s.pc (beginStep s)
  | some w => runOpcode w (advancePc (beginStep s))

/-- What a step returns to the host, read from its outcome: `Err` with the latch exactly when a trap is latched after it
(40_step_cycle.md R76, 60_exceptions.md R122, R123). -/
def returnOf : Result → Option StepReturn
  | .next t => some (if t.trapCause = .none then .ok else .err t.trapCause t.trapInfo)
  | .fault (.trapped cause info) => some (.err cause info)
  | .refused _ => none

/-- The address that the next step fetches from: `PC`, or 0x200 where nothing can be fetched at `PC`. -/
def placeAddress (s : State) : Word := if s.pc.toNat > Config.lastFetch then 0x200#16 else s.pc

/-- `s` with the opcode `w` where the next step fetches: its two bytes at `PC`, high byte first. What a fetch needs is
supplied and nothing else changes: a latched trap is cleared, and a `PC` above 0xFFE is moved to 0x200
(notes/assumptions/12.md). -/
def placeOpcode (s : State) (w : Word) : State :=
  ((s.setMem (Memory.writeBytes s.mem (placeAddress s).toNat [opcodeHi w, opcodeLo w])).setPc (placeAddress s)).setTrap
    .none (if s.trapCause = .none then s.trapInfo else 0#16)

end Sys2Proof.Machine
end

