-- ==== Sys2Proof/Machine/Step.lean ====
section
/-! DEFINITION. The operation `STEP` (40_step_cycle.md R76). -/

namespace Sys2Proof.Machine

/-- `STEP`: a latched trap stops it with the latch as the reason and no change of state (R70, 60_exceptions.md R123);
otherwise stages 0 to 3 run. -/
def step (s : State) : Host.Outcome State Fault Refusal :=
  if s.trapCause = .none then runStep s else .fault (.trapped s.trapCause s.trapInfo)

/-- What `STEP` returns to the host (R76). -/
def stepReturn (s : State) : Option StepReturn := returnOf (step s)

/-- `s` with the table word `w` of `nbits` bits placed where `step` fetches its next instruction. -/
def State.withFetchWord (s : State) (nbits w : Nat) : State := placeOpcode s (tableOpcode nbits w)

end Sys2Proof.Machine
end

