-- ==== Sys2Proof/Machine/HostPorts.lean ====
section
/-! DEFINITION. What the host can do to the machine between two steps (00_scope.md R3): `RESET` and `LOAD`
(70_reset_and_hazards.md R150, R151) and the display, key, timer and trap-latch ports (60_exceptions.md R131 to R133,
10_state.md R26). They are no steps of the core. -/

namespace Sys2Proof.Machine

/-- `RESET` (R150), in its order: registers, stack, timers and keys to zero, zero to every cell of memory, display,
dirty flag and trap latch cleared, then the font. -/
def hostReset (s : State) : State where
  v := Vector.replicate 16 0#8
  i := 0#16
  pc := 0#16
  sp := 0#8
  stack := Vector.replicate 16 0#16
  dt := 0#8
  st := 0#8
  keys := Vector.replicate 16 false
  mem := Memory.writeBytes (Memory.writeBytes s.mem 0 (List.replicate Config.memSize 0#8)) Config.fontBase font
  disp := Display.clear
  dirty := false
  trapCause := .none
  trapInfo := 0#16

/-- `LOAD(img)` (R151): the image, cut at 3584 bytes, to memory from 0x200, and `PC <- 0x200`; nothing else. -/
def hostLoad (img : List Byte) (s : State) : State :=
  (s.setMem (Memory.writeBytes s.mem Config.progBase (img.take Config.maxImage))).setPc 0x200#16

/-- The key port (R132). -/
def hostSetKey (k : Fin 16) (down : Bool) (s : State) : State := s.setKey k down

/-- The timer port's write of `DT` (R133). -/
def hostSetDelay (b : Byte) (s : State) : State := s.setDt b

/-- The timer port's write of `ST` (R133). -/
def hostSetSound (b : Byte) (s : State) : State := s.setSt b

/-- The timer port's read: `(DT, ST)` (R133). -/
def hostReadTimers (s : State) : Byte × Byte := (s.dt, s.st)

/-- The display port: the cell in column `x` of row `y` (R131). Reading is no change of state. -/
def hostReadCell (x : Fin 64) (y : Fin 32) (s : State) : Bool := Display.cell s.disp x y

/-- The display port by linear index, row-major: element `y × 64 + x` is cell `(x, y)` (10_state.md R19, D18). -/
def hostReadLinear (k : Fin 2048) (s : State) : Bool :=
  hostReadCell ⟨k.val % 64, Nat.mod_lt _ (by decide)⟩ ⟨k.val / 64, Nat.div_lt_of_lt_mul k.isLt⟩ s

/-- The display port's flag (R131); reading it does not clear it. -/
def hostReadDirty (s : State) : Bool := s.dirty

/-- The trap latch as the host reads it (R123, 10_state.md R26): the 3-bit code and the info. -/
def hostReadTrap (s : State) : BitVec 3 × Word := (s.trapCause.code, s.trapInfo)

/-- The host operations that change state. -/
inductive HostAction
  | reset
  | load (img : List Byte)
  | setKey (k : Fin 16) (down : Bool)
  | setDelay (b : Byte)
  | setSound (b : Byte)
  deriving DecidableEq, Repr

/-- One host operation, between two steps, running to its end (20_memory.md R39). -/
def hostAct (a : HostAction) (s : State) : State :=
  match a with
  | .reset => hostReset s
  | .load img => hostLoad img s
  | .setKey k down => hostSetKey k down s
  | .setDelay b => hostSetDelay b s
  | .setSound b => hostSetSound b s

end Sys2Proof.Machine
end

