-- ==== Sys2Proof/Safety.lean ====
section
/-! DEFINITION. The terms claims use: a trapped core, a finished run, the invariants of reachable states, reachability,
and the parts of a frame. -/

namespace Sys2Proof.Machine

/-- A trapped core: halted, never a finished state (60_exceptions.md R123). -/
def Trapped (s : State) : Prop := s.trapCause ≠ .none

/-- The offered end of a run: not trapped, and the instruction at `PC` is `JP PC` (70_reset_and_hazards.md R158, the
spec's decision D19; notes/assumptions/17.md). The core itself does not detect it. -/
def Finished (s : State) : Prop :=
  ¬ Trapped s ∧ s.pc.toNat ≤ 0xFFE ∧ fetchOpcode? s = some (0x1000#16 + s.pc)

/-- The invariants of reachable states (10_state.md R25 a, d, e, f) and the canonical form of the memory. The bounds of
R25 b, c and h hold by the types of the fields. -/
structure Invariant (s : State) : Prop where
  sp_le : s.sp.toNat ≤ 16
  i_le : s.i.toNat ≤ 0x0FFF
  pc_le : s.pc.toNat ≤ 0x1002
  live : ∀ j : Fin 16, j.val < s.sp.toNat → 2 ≤ (s.stack[j.val]).toNat ∧ (s.stack[j.val]).toNat ≤ 0x1000
  mem_wf : s.mem.wf

/-- The states reachable from `RESET` by `STEP`, `LOAD` and the host's ports (10_state.md R25). -/
inductive Reachable : State → Prop
  | reset : Reachable State.reset
  | step {s t : State} : Reachable s → step s = .next t → Reachable t
  | host {s : State} (a : HostAction) : Reachable s → Reachable (hostAct a s)

/-- The outcome with a function applied to its next state. -/
def mapNext (f : State → State) : Result → Result
  | .next t => .next (f t)
  | .fault r => .fault r
  | .refused r => .refused r

/-! ## Parts of a frame: what is the same in `t` as in `s` -/

/-- Every byte of memory reads as before. -/
def SameMemory (s t : State) : Prop := ∀ a : Nat, t.mem.read? a = s.mem.read? a

/-- Every general register but those in `xs` reads as before. -/
def SameRegistersBut (xs : List Reg) (s t : State) : Prop := ∀ r : Reg, r ∉ xs → t.readV r = s.readV r

/-- Stack pointer and every stack entry as before. -/
def SameStack (s t : State) : Prop := t.sp = s.sp ∧ t.stack = s.stack

/-- Every display cell as before. -/
def SameDisplay (s t : State) : Prop :=
  ∀ (x : Fin 64) (y : Fin 32), Display.cell t.disp x y = Display.cell s.disp x y

/-- Timers and keys as before. -/
def SameHostInputs (s t : State) : Prop := t.dt = s.dt ∧ t.st = s.st ∧ t.keys = s.keys

/-- Trap latch as before. -/
def SameLatch (s t : State) : Prop := t.trapCause = s.trapCause ∧ t.trapInfo = s.trapInfo

/-- The sprite bit that a draw of `n` rows from `I`, anchored at column `x0` and row `y0`, lays on the cell in column
`cx` of row `cy`: bit `7 - (cx - x0)` of the byte at `I + (cy - y0)` inside the sprite, and 0 outside it (44_display.md
R112). Every cell of the grid is a visible one, so clipping is the bound on `cx` and `cy` themselves. -/
def spriteBit (s : State) (n x0 y0 : Nat) (cx : Fin 64) (cy : Fin 32) : Bool :=
  if x0 ≤ cx.val ∧ cx.val < x0 + 8 ∧ y0 ≤ cy.val ∧ cy.val < y0 + n then
    match s.mem.read? (s.i.toNat + (cy.val - y0)) with
    | some b => b.getLsbD (7 - (cx.val - x0))
    | none => false
  else false

end Sys2Proof.Machine
end

