-- ==== Sys2Proof/Certificates/Slice0/Obligations.lean ====
section
/-! DEFINITION. The statements for the provers. Each docstring names the part of spec/ it formalises, and any choice of
the spec's own (92_eei_decisions.md D<n>) or of the model's (notes/assumptions/<n>.md) it rests on. -/

open Sys2Proof Sys2Proof.Machine

/-! ## Encoding -/

/-- 30_encoding.md sections 1 and 2: no bit of an encoding is dropped, every operand value included. -/
def Obligations.DecodeOfEncodeIsTheInstruction : Prop :=
  ∀ i : Instr, i.wellFormed = true → decode (encode i) = .instruction i

/-- 30_encoding.md section 2: an instruction has one encoding, the opcode it was decoded from. -/
def Obligations.EncodeOfDecodeIsTheOpcode : Prop :=
  ∀ (w : Word) (i : Instr), decode w = .instruction i → encode i = w

/-- 30_encoding.md section 2: an opcode is an instruction of a row exactly when it meets the row's mask and match, so
no opcode meets two rows (the low nibble of 5XY0 and 9XY0 being part of the match is the spec's decision D7). -/
def Obligations.DecodingIsExactlyMaskAndMatch : Prop :=
  ∀ w : Word,
    (∀ i : Instr, decode w = .instruction i → w &&& i.rowMask = i.rowMatch) ∧
    (∀ j : Instr, w &&& j.rowMask = j.rowMatch →
      ∃ i : Instr, decode w = .instruction i ∧ i.rowMask = j.rowMask ∧ i.rowMatch = j.rowMatch)

/-- 30_encoding.md sections 2 and 3: the opcodes that are no instruction, and no others (D7 for the families 5 and 9). -/
def Obligations.UnrecognizedOpcodesAreExactlyTheUnlisted : Prop :=
  ∀ w : Word, decode w = .unrecognized w ↔
    (w.toNat / 4096 = 0 ∧ w ≠ 0x00E0#16 ∧ w ≠ 0x00EE#16) ∨
    ((w.toNat / 4096 = 5 ∨ w.toNat / 4096 = 9) ∧ w.toNat % 16 ≠ 0) ∨
    w.toNat / 4096 = 8 ∨ w.toNat / 4096 = 11 ∨ w.toNat / 4096 = 12 ∨ w.toNat / 4096 = 14 ∨ w.toNat / 4096 = 15

/-- R51: the six fields as masks and shifts, their overlaps, their places in the two memory bytes, and the source's two
examples. -/
def Obligations.OpcodeFieldsAreTheMaskedSlices : Prop :=
  (∀ w : Word,
    fieldOp w = ((w &&& 0xF000#16) >>> 12).setWidth 4 ∧
    (fieldX w).val = ((w &&& 0x0F00#16) >>> 8).toNat ∧
    (fieldY w).val = ((w &&& 0x00F0#16) >>> 4).toNat ∧
    (fieldN w).toNat = (w &&& 0x000F#16).toNat ∧
    (fieldNN w).toNat = (w &&& 0x00FF#16).toNat ∧
    (fieldNNN w).toNat = (w &&& 0x0FFF#16).toNat ∧
    (fieldNN w).toNat = (fieldY w).val * 16 + (fieldN w).toNat ∧
    (fieldNNN w).toNat = (fieldX w).val * 256 + (fieldY w).val * 16 + (fieldN w).toNat ∧
    (opcodeHi w).toNat = (fieldOp w).toNat * 16 + (fieldX w).val ∧
    opcodeLo w = fieldNN w) ∧
  (fieldOp 0xD123#16 = 0xD#4 ∧ fieldX 0xD123#16 = 1 ∧ fieldY 0xD123#16 = 2 ∧ fieldN 0xD123#16 = 3#4) ∧
  (fieldOp 0x6F2A#16 = 0x6#4 ∧ fieldX 0x6F2A#16 = 15 ∧ fieldNN 0x6F2A#16 = 0x2A#8)

/-- 30_encoding.md section 2, 95_test_vectors.md section 2.1: words written out from the encoding table. -/
def Obligations.WordsOfTheEncodingTableDecode : Prop :=
  decode 0x00E0#16 = .instruction .cls ∧ decode 0x00EE#16 = .instruction .ret ∧
  decode 0x1FFF#16 = .instruction (.jp 0xFFF#12) ∧ decode 0x3AFF#16 = .instruction (.seVxNn 10 0xFF#8) ∧
  decode 0x5AB0#16 = .instruction (.seVxVy 10 11) ∧ decode 0x6F2A#16 = .instruction (.ldVxNn 15 0x2A#8) ∧
  decode 0xA050#16 = .instruction (.ldINnn 0x050#12) ∧ decode 0xD123#16 = .instruction (.drw 1 2 3#4) ∧
  decode 0x8014#16 = .unrecognized 0x8014#16

/-! ## Memory, reset and the host -/

/-- 20_memory.md section 2: the byte at the lower address is the high byte of the opcode. That no parity of `PC` matters
is the spec's decision D11 (notes/assumptions/8.md). -/
def Obligations.FetchCombinesTwoBytesBigEndian : Prop :=
  ∀ s : State, s.pc.toNat ≤ 0xFFE → ∃ hi lo : Byte, ∃ w : Word,
    s.mem.read? s.pc.toNat = some hi ∧ s.mem.read? (s.pc.toNat + 1) = some lo ∧
    fetchOpcode? s = some w ∧ w.toNat = hi.toNat * 256 + lo.toNat

/-- notes/assumptions/16.md (the model's choice of memory as a list in one canonical form): memories that read equally
are equal data. -/
def Obligations.MemoriesThatReadEquallyAreEqual : Prop :=
  ∀ m n : Memory, m.wf → n.wf → (∀ a : Nat, m.read? a = n.read? a) → m = n

/-- 10_state.md section 7: every piece of state after `RESET`; the font bytes are the presumed table of
notes/assumptions/2.md. -/
def Obligations.ResetLeavesTheTabulatedValues : Prop :=
  (∀ x : Reg, State.reset.readV x = 0#8) ∧ State.reset.i = 0#16 ∧ State.reset.pc = 0#16 ∧ State.reset.sp = 0#8 ∧
  (∀ j : Fin 16, State.reset.stack[j.val] = 0#16) ∧ State.reset.dt = 0#8 ∧ State.reset.st = 0#8 ∧
  (∀ k : Fin 16, State.reset.keys[k.val] = false) ∧
  (∀ a : Nat, a < 0x050 → State.reset.mem.read? a = some 0#8) ∧
  (∀ k : Nat, k < 80 → State.reset.mem.read? (0x050 + k) = font[k]?) ∧
  (∀ a : Nat, 0x0A0 ≤ a → a < 0x1000 → State.reset.mem.read? a = some 0#8) ∧
  (∀ (x : Fin 64) (y : Fin 32), Display.cell State.reset.disp x y = false) ∧
  State.reset.dirty = false ∧ State.reset.trapCause = .none ∧ State.reset.trapInfo = 0#16

/-- 70_reset_and_hazards.md section 1: the operation `RESET`, a zero fill and the font written over any memory, leaves
the reset state whatever it started from (the font is notes/assumptions/2.md). -/
def Obligations.ResetOperationLeavesTheResetState : Prop :=
  ∀ s : State, s.mem.wf → hostReset s = State.reset

/-- 70_reset_and_hazards.md section 1: `LOAD` writes the image, cut at 3584 bytes (D13), and `PC`, and nothing else
(D14). -/
def Obligations.LoadWritesTheImageAndPcOnly : Prop :=
  ∀ (img : List Byte) (s : State), s.mem.wf →
    (hostLoad img s).pc = 0x200#16 ∧
    (∀ k : Nat, k < min img.length 3584 → (hostLoad img s).mem.read? (0x200 + k) = img[k]?) ∧
    (∀ a : Nat, ¬ (0x200 ≤ a ∧ a < 0x200 + min img.length 3584) → (hostLoad img s).mem.read? a = s.mem.read? a) ∧
    SameRegistersBut [] s (hostLoad img s) ∧ (hostLoad img s).i = s.i ∧ SameStack s (hostLoad img s) ∧
    SameDisplay s (hostLoad img s) ∧ (hostLoad img s).dirty = s.dirty ∧ SameHostInputs s (hostLoad img s) ∧
    SameLatch s (hostLoad img s)

/-- 20_memory.md sections 2 and 4: a `LOAD` between two steps is seen by the very next fetch, the image's first byte as
the high byte of the first instruction. -/
def Obligations.LoadedImageIsFetchedHighByteFirst : Prop :=
  ∀ (hi lo : Byte) (rest : List Byte) (s : State), s.mem.wf →
    fetchOpcode? (hostLoad (hi :: lo :: rest) s) = some (hi ++ lo)

/-- 60_exceptions.md section 3 and 10_state.md section 4: each port writes its own register and nothing else, and the
linear view of the display is row-major (D18). -/
def Obligations.HostPortsWriteOnlyTheirOwnState : Prop :=
  (∀ (k : Fin 16) (b : Bool) (s : State), hostSetKey k b s = { s with keys := s.keys.set k.val b }) ∧
  (∀ (b : Byte) (s : State), hostReadTimers (hostSetDelay b s) = (b, s.st) ∧ hostSetDelay b s = { s with dt := b }) ∧
  (∀ (b : Byte) (s : State), hostReadTimers (hostSetSound b s) = (s.dt, b) ∧ hostSetSound b s = { s with st := b }) ∧
  (∀ (x : Fin 64) (y : Fin 32) (h : y.val * 64 + x.val < 2048) (s : State),
    hostReadLinear ⟨y.val * 64 + x.val, h⟩ s = Display.cell s.disp x y)

/-- 60_exceptions.md section 1: no step and no host operation but `RESET` clears a latched trap (D20, D14). -/
def Obligations.OnlyResetClearsALatchedTrap : Prop :=
  ∀ s : State, Trapped s →
    (∀ t : State, step s ≠ .next t) ∧
    (∀ a : HostAction, a ≠ .reset → SameLatch s (hostAct a s)) ∧
    ¬ Trapped (hostAct .reset s)

/-! ## The step -/

/-- 40_step_cycle.md sections 1 and 2: where the two bytes at `PC` decode to an instruction, the step is that
instruction's meaning on the state with `DIRTY` cleared and `PC` moved past it. -/
def Obligations.StepRunsTheDecodedInstruction : Prop :=
  ∀ (s : State) (hi lo : Byte) (i : Instr), s.trapCause = .none →
    s.mem.read? s.pc.toNat = some hi → s.mem.read? (s.pc.toNat + 1) = some lo →
    decode (hi ++ lo) = .instruction i → i.wellFormed = true →
    step s = exec i { s with dirty := false, pc := s.pc + 2#16 }

/-- 40_step_cycle.md section 1, 60_exceptions.md section 1: an unrecognised opcode traps with the literal opcode (latch
and state left: D2 to D4). -/
def Obligations.UnrecognizedOpcodeTrapsWithTheOpcode : Prop :=
  ∀ (s : State) (hi lo : Byte), s.trapCause = .none →
    s.mem.read? s.pc.toNat = some hi → s.mem.read? (s.pc.toNat + 1) = some lo →
    decode (hi ++ lo) = .unrecognized (hi ++ lo) →
    ∃ t : State, step s = .next t ∧ t.trapCause = .unrecognizedOpcode ∧ t.trapInfo = hi ++ lo ∧
      t.pc = s.pc + 2#16 ∧ t.dirty = false ∧ SameRegistersBut [] s t ∧ t.i = s.i ∧ SameStack s t ∧ SameDisplay s t ∧
      SameMemory s t ∧ SameHostInputs s t

/-- 40_step_cycle.md section 1: a `PC` above 0xFFE traps before anything is read (D8, D4). -/
def Obligations.FetchOutsideMemoryTrapsWithThePc : Prop :=
  ∀ s : State, s.trapCause = .none → s.pc.toNat > 0xFFE →
    ∃ t : State, step s = .next t ∧ t.trapCause = .fetchOutOfRange ∧ t.trapInfo = s.pc ∧
      t.pc = s.pc ∧ t.dirty = false ∧ SameRegistersBut [] s t ∧ t.i = s.i ∧ SameStack s t ∧ SameDisplay s t ∧
      SameMemory s t ∧ SameHostInputs s t

/-- 60_exceptions.md section 1, D20 (that the halted core is the model's one fault: notes/assumptions/1.md): a step
stops exactly when a trap is latched, reports the latch, and is never refused. -/
def Obligations.StepStopsExactlyWhenATrapIsLatched : Prop :=
  ∀ s : State, ((∃ f : Fault, step s = .fault f) ↔ Trapped s) ∧
    (Trapped s → step s = .fault (.trapped s.trapCause s.trapInfo) ∧
      stepReturn s = some (.err s.trapCause s.trapInfo)) ∧
    ∀ r : Refusal, step s ≠ .refused r

/-- 70_reset_and_hazards.md section 2, 60_exceptions.md section 1: a step returns `Ok` exactly within the limits a
program must keep to (D8, D9 for the two ranges). -/
def Obligations.StepReturnsOkExactlyWithinTheLimits : Prop :=
  ∀ s : State, stepReturn s = some .ok ↔
    ¬ Trapped s ∧ s.pc.toNat ≤ 0xFFE ∧ ∃ w i, fetchOpcode? s = some w ∧ decode w = .instruction i ∧
      (i = .ret → s.sp ≠ 0#8) ∧ (∀ nnn, i = .call nnn → s.sp.toNat < 16) ∧
      (∀ x y n, i = .drw x y n → s.i.toNat + n.toNat ≤ 4096)

/-- 60_exceptions.md section 1 (D3, D4): a trapping step changes the latch, `DIRTY` and `PC` only, and the latch holds
the fetched opcode, or `PC` for the fetch trap. -/
def Obligations.TrappingStepLeavesTheTabulatedState : Prop :=
  ∀ s t : State, step s = .next t → Trapped t →
    t.dirty = false ∧ SameRegistersBut [] s t ∧ t.i = s.i ∧ SameStack s t ∧ SameDisplay s t ∧ SameMemory s t ∧
    SameHostInputs s t ∧
    (t.trapCause = .fetchOutOfRange → t.pc = s.pc ∧ t.trapInfo = s.pc) ∧
    (t.trapCause ≠ .fetchOutOfRange → t.pc = s.pc + 2#16 ∧ fetchOpcode? s = some t.trapInfo)

/-- 60_exceptions.md section 1: a step raises each trap exactly in the tabulated case, and an instruction that has no
trap of its own never traps (the two ranges are D8 and D9, the full stack is the convention D5). -/
def Obligations.StepsTrapExactlyInTheTabulatedCases : Prop :=
  ∀ s t : State, step s = .next t →
    (t.trapCause = .fetchOutOfRange ↔ s.pc.toNat > 0xFFE) ∧
    (t.trapCause = .unrecognizedOpcode ↔ ∃ w, fetchOpcode? s = some w ∧ decode w = .unrecognized w) ∧
    (t.trapCause = .stackUnderflow ↔ (∃ w, fetchOpcode? s = some w ∧ decode w = .instruction .ret) ∧ s.sp = 0#8) ∧
    (t.trapCause = .stackOverflow ↔
      (∃ w nnn, fetchOpcode? s = some w ∧ decode w = .instruction (.call nnn)) ∧ 16 ≤ s.sp.toNat) ∧
    (t.trapCause = .drawSourceOutOfRange ↔
      ∃ w x y n, fetchOpcode? s = some w ∧ decode w = .instruction (.drw x y n) ∧ s.i.toNat + n.toNat > 4096)

/-- 40_step_cycle.md section 2: no step writes memory, timers or keys, and apart from the dirty clear and the fetch advance
a step changes only what its instruction's rule names, entry by entry of the stack and cell by cell of the display. The
trap latch is named by the rules of the instructions with a trap of their own, and is written only by a step that traps.
A step without an instruction writes no register, stack entry or display cell, and its `PC` is advanced unless the fetch
itself trapped. Spec decisions it rests on: the entry a push writes is the one at `SP` (D5, notes/assumptions/10.md); a
draw's anchor is read before VF is written, for VF as an anchor register too (D10, notes/assumptions/7.md); the fetch trap
(D8, notes/assumptions/6.md) and the state a trap leaves (D4, notes/assumptions/9.md). -/
def Obligations.StepWritesOnlyWhatTheInstructionNames : Prop :=
  ∀ s t : State, step s = .next t → SameMemory s t ∧ SameHostInputs s t ∧
    (¬ Trapped t → SameLatch s t) ∧
    (∀ (w : Word) (i : Instr), fetchOpcode? s = some w → decode w = .instruction i →
      (∀ r : Reg, t.readV r ≠ s.readV r →
        (∃ nn, i = .ldVxNn r nn) ∨ (∃ nn, i = .addVxNn r nn) ∨ (r = regVF ∧ ∃ x y n, i = .drw x y n)) ∧
      (t.i ≠ s.i → ∃ nnn, i = .ldINnn nnn) ∧
      (t.sp ≠ s.sp → i = .ret ∨ ∃ nnn, i = .call nnn) ∧
      (∀ j : Fin 16, t.stack[j.val] ≠ s.stack[j.val] → j.val = s.sp.toNat ∧ ∃ nnn, i = .call nnn) ∧
      (∀ (cx : Fin 64) (cy : Fin 32), Display.cell t.disp cx cy ≠ Display.cell s.disp cx cy →
        i = .cls ∨ ∃ x y n, i = .drw x y n ∧
          spriteBit s n.toNat ((s.readV x).toNat % 64) ((s.readV y).toNat % 32) cx cy = true) ∧
      (t.dirty = true → i = .cls ∨ ∃ x y n, i = .drw x y n) ∧
      (t.pc ≠ s.pc + 2#16 → i = .ret ∨ (∃ nnn, i = .jp nnn) ∨ (∃ nnn, i = .call nnn) ∨
        (∃ x nn, i = .seVxNn x nn ∧ s.readV x = nn) ∨ (∃ x nn, i = .sneVxNn x nn ∧ s.readV x ≠ nn) ∨
        (∃ x y, i = .seVxVy x y ∧ s.readV x = s.readV y) ∨ (∃ x y, i = .sneVxVy x y ∧ s.readV x ≠ s.readV y)) ∧
      (¬ SameLatch s t → i = .ret ∨ (∃ nnn, i = .call nnn) ∨ ∃ x y n, i = .drw x y n)) ∧
    ((∀ (w : Word) (i : Instr), fetchOpcode? s = some w → decode w ≠ .instruction i) →
      SameRegistersBut [] s t ∧ t.i = s.i ∧ SameStack s t ∧ SameDisplay s t ∧ t.dirty = false ∧
      (s.pc.toNat > 0xFFE → t.pc = s.pc) ∧ (s.pc.toNat ≤ 0xFFE → t.pc = s.pc + 2#16))

/-- R114: `DIRTY` after a step tells whether that step drew or cleared; a step that traps leaves it false, and a step
that leaves it false leaves the display unchanged. -/
def Obligations.DirtyTellsWhetherTheStepDrewOrCleared : Prop :=
  ∀ s t : State, step s = .next t →
    (t.dirty = true ↔ ¬ Trapped t ∧ ∃ w i, fetchOpcode? s = some w ∧ decode w = .instruction i ∧
      (i = .cls ∨ ∃ x y n, i = .drw x y n)) ∧
    (t.dirty = false → SameDisplay s t)

/-- 60_exceptions.md section 3: keys and timers influence no step (they are the host's free inputs). -/
def Obligations.KeysAndTimersInfluenceNoStep : Prop :=
  ∀ s : State,
    (∀ (k : Fin 16) (b : Bool), step (hostSetKey k b s) = mapNext (hostSetKey k b) (step s)) ∧
    (∀ b : Byte, step (hostSetDelay b s) = mapNext (hostSetDelay b) (step s)) ∧
    (∀ b : Byte, step (hostSetSound b s) = mapNext (hostSetSound b) (step s))

/-- 10_state.md section 2 (D6): a dead stack entry influences no step: from two states that differ in it alone, the
step answers states that differ in it at most. -/
def Obligations.DeadStackEntriesInfluenceNoStep : Prop :=
  ∀ (s t : State) (j : Fin 16) (w : Word), s.sp.toNat ≤ j.val → step s = .next t →
    ∃ u : State, step (s.setStack j w) = .next u ∧ u.setStack j t.stack[j.val] = t

/-- 70_reset_and_hazards.md section 4 (D19, notes/assumptions/17.md): a finished state is a fixed point up to `DIRTY`. -/
def Obligations.FinishedStateIsAFixedPointUpToDirty : Prop :=
  ∀ s : State, Finished s → step s = .next { s with dirty := false } ∧ Finished { s with dirty := false }

/-! ## Invariants -/

/-- 10_state.md section 8: the invariants hold after `RESET`. -/
def Obligations.ResetStateMeetsTheInvariants : Prop := Invariant State.reset

/-- 10_state.md section 8: every step from a state with the invariants, reachable or not, keeps them (they rest on the
stack convention D5 and the fetch trap D8). -/
def Obligations.EveryStepKeepsTheInvariants : Prop :=
  ∀ s t : State, Invariant s → step s = .next t → Invariant t

/-- 10_state.md section 8: every host operation keeps the invariants. -/
def Obligations.EveryHostOperationKeepsTheInvariants : Prop :=
  ∀ (a : HostAction) (s : State), Invariant s → Invariant (hostAct a s)

/-- 10_state.md section 8: in every state reachable from `RESET` by `STEP`, `LOAD` and the ports, the invariants hold
(they rest on D5 and D8, and that the host acts between steps is D17; the memory's canonical form among them is the
model's choice, notes/assumptions/16.md). -/
def Obligations.ReachableStatesMeetTheInvariants : Prop :=
  ∀ s : State, Reachable s → Invariant s

/-! ## Control flow -/

/-- R83: the jump loads the zero-extended target and changes nothing else, whatever the target. Its encoding is stated
too, as in every statement that cites an instruction's rule. -/
def Obligations.JumpLoadsTheTarget : Prop :=
  ∀ (nnn : Addr12) (s : State), (encode (.jp nnn)).toNat = 0x1000 + nnn.toNat ∧
    ∃ t : State, exec (.jp nnn) s = .next t ∧ t.pc.toNat = nnn.toNat ∧
    SameRegistersBut [] s t ∧ t.i = s.i ∧ SameStack s t ∧ SameDisplay s t ∧ t.dirty = s.dirty ∧ SameMemory s t ∧
    SameHostInputs s t ∧ SameLatch s t

/-- 41_control_flow.md sections 1 and 2 (D5): below 16 entries a call pushes the advanced `PC` and jumps. -/
def Obligations.CallPushesThePcAndJumps : Prop :=
  ∀ (nnn : Addr12) (s : State) (h : s.sp.toNat < 16), ∃ t : State, exec (.call nnn) s = .next t ∧
    t.pc.toNat = nnn.toNat ∧ t.sp.toNat = s.sp.toNat + 1 ∧ t.stack[s.sp.toNat] = s.pc ∧
    (∀ j : Fin 16, j.val ≠ s.sp.toNat → t.stack[j.val] = s.stack[j.val]) ∧
    SameRegistersBut [] s t ∧ t.i = s.i ∧ SameDisplay s t ∧ t.dirty = s.dirty ∧ SameMemory s t ∧
    SameHostInputs s t ∧ SameLatch s t

/-- 41_control_flow.md sections 1 and 2, 60_exceptions.md section 1 (D3, D4): a call on a full stack traps with its
opcode before any other write. -/
def Obligations.CallOnAFullStackTraps : Prop :=
  ∀ (nnn : Addr12) (s : State), 16 ≤ s.sp.toNat → ∃ t : State, exec (.call nnn) s = .next t ∧
    t.trapCause = .stackOverflow ∧ t.trapInfo.toNat = 0x2000 + nnn.toNat ∧ t.pc = s.pc ∧ SameStack s t ∧
    SameRegistersBut [] s t ∧ t.i = s.i ∧ SameDisplay s t ∧ t.dirty = s.dirty ∧ SameMemory s t ∧ SameHostInputs s t

/-- 41_control_flow.md sections 1 and 2 (D5, D6): a return on a stack that is not empty loads the last live entry, which
keeps its value. Where `SP` is above 16 there is no such entry, and what is loaded is free (notes/assumptions/3.md). -/
def Obligations.ReturnPopsTheLastEntry : Prop :=
  ∀ s : State, s.sp ≠ 0#8 → ∃ t : State, exec .ret s = .next t ∧ t.sp.toNat + 1 = s.sp.toNat ∧
    (∀ j : Fin 16, j.val + 1 = s.sp.toNat → t.pc = s.stack[j.val]) ∧ t.stack = s.stack ∧
    SameRegistersBut [] s t ∧ t.i = s.i ∧ SameDisplay s t ∧ t.dirty = s.dirty ∧ SameMemory s t ∧
    SameHostInputs s t ∧ SameLatch s t

/-- 41_control_flow.md sections 1 and 2, 60_exceptions.md section 1 (D3, D4): a return on the empty stack traps. -/
def Obligations.ReturnOnAnEmptyStackTraps : Prop :=
  ∀ s : State, s.sp = 0#8 → ∃ t : State, exec .ret s = .next t ∧
    t.trapCause = .stackUnderflow ∧ t.trapInfo = 0x00EE#16 ∧ t.pc = s.pc ∧ SameStack s t ∧
    SameRegistersBut [] s t ∧ t.i = s.i ∧ SameDisplay s t ∧ t.dirty = s.dirty ∧ SameMemory s t ∧ SameHostInputs s t

/-- 41_control_flow.md section 3: a call followed at once by the return gives `PC = p + 2` and restores `SP`; the pushed
address stays in a dead entry (D5, D6). -/
def Obligations.CallThenReturnRoundTrip : Prop :=
  ∀ (s t : State) (nnn : Addr12) (h : s.sp.toNat < 16), ¬ Trapped s → fetchOpcode? s = some (encode (.call nnn)) →
    step s = .next t → fetchOpcode? t = some 0x00EE#16 →
    ∃ u : State, step t = .next u ∧ ¬ Trapped u ∧ u.pc = s.pc + 2#16 ∧ u.sp = s.sp ∧
      u.stack[s.sp.toNat] = s.pc + 2#16 ∧
      (∀ j : Fin 16, j.val ≠ s.sp.toNat → u.stack[j.val] = s.stack[j.val]) ∧
      SameRegistersBut [] s u ∧ u.i = s.i ∧ SameDisplay s u ∧ SameMemory s u ∧ SameHostInputs s u

/-- 41_control_flow.md section 1 (D5): from the empty stack sixteen pushes succeed, filling the entries in order, and the
seventeenth fails. -/
def Obligations.SixteenPushesSucceedTheSeventeenthFails : Prop :=
  ∀ (ws : List Word) (w : Word) (s : State), s.sp = 0#8 →
    (ws.length ≤ 16 → ∃ t : State, ws.foldlM (fun u v => push? v u) s = some t ∧ t.sp.toNat = ws.length ∧
      ∀ (j : Fin 16) (h : j.val < ws.length), t.stack[j.val] = ws[j.val]) ∧
    (ws.length = 16 → (ws ++ [w]).foldlM (fun u v => push? v u) s = none)

/-! ## Skips -/

/-- R91, R92: the two skips on a byte skip exactly on equality and on inequality, VF an operand like any other, and
change `PC` only. -/
def Obligations.ByteSkipsSkipExactlyOnTheirCondition : Prop :=
  ∀ (x : Reg) (nn : Byte) (s : State),
    (encode (.seVxNn x nn)).toNat = 0x3000 + x.val * 256 + nn.toNat ∧
    (encode (.sneVxNn x nn)).toNat = 0x4000 + x.val * 256 + nn.toNat ∧
    (∃ t : State, exec (.seVxNn x nn) s = .next t ∧
      ((s.readV x).toNat = nn.toNat → t.pc = s.pc + 2#16) ∧ ((s.readV x).toNat ≠ nn.toNat → t.pc = s.pc) ∧
      SameRegistersBut [] s t ∧ t.i = s.i ∧ SameStack s t ∧ SameDisplay s t ∧ t.dirty = s.dirty ∧ SameMemory s t ∧
      SameHostInputs s t ∧ SameLatch s t) ∧
    (∃ t : State, exec (.sneVxNn x nn) s = .next t ∧
      ((s.readV x).toNat ≠ nn.toNat → t.pc = s.pc + 2#16) ∧ ((s.readV x).toNat = nn.toNat → t.pc = s.pc) ∧
      SameRegistersBut [] s t ∧ t.i = s.i ∧ SameStack s t ∧ SameDisplay s t ∧ t.dirty = s.dirty ∧ SameMemory s t ∧
      SameHostInputs s t ∧ SameLatch s t)

/-- 42_skips.md section 2: the two skips on a register skip exactly on equality and on inequality, and change `PC`
only; with `X = Y` the first always skips and the second never. -/
def Obligations.RegisterSkipsSkipExactlyOnTheirCondition : Prop :=
  ∀ (x y : Reg) (s : State),
    (∃ t : State, exec (.seVxVy x y) s = .next t ∧
      (((s.readV x).toNat = (s.readV y).toNat ∨ x = y) → t.pc = s.pc + 2#16) ∧
      ((s.readV x).toNat ≠ (s.readV y).toNat → t.pc = s.pc) ∧
      SameRegistersBut [] s t ∧ t.i = s.i ∧ SameStack s t ∧ SameDisplay s t ∧ t.dirty = s.dirty ∧ SameMemory s t ∧
      SameHostInputs s t ∧ SameLatch s t) ∧
    (∃ t : State, exec (.sneVxVy x y) s = .next t ∧
      ((s.readV x).toNat ≠ (s.readV y).toNat → t.pc = s.pc + 2#16) ∧
      (((s.readV x).toNat = (s.readV y).toNat ∨ x = y) → t.pc = s.pc) ∧
      SameRegistersBut [] s t ∧ t.i = s.i ∧ SameStack s t ∧ SameDisplay s t ∧ t.dirty = s.dirty ∧ SameMemory s t ∧
      SameHostInputs s t ∧ SameLatch s t)

/-! ## Load and add -/

/-- R100: the load writes its byte to `V[X]`, VF included, and nothing else. -/
def Obligations.LoadByteWritesTheRegister : Prop :=
  ∀ (x : Reg) (nn : Byte) (s : State), (encode (.ldVxNn x nn)).toNat = 0x6000 + x.val * 256 + nn.toNat ∧
    ∃ t : State, exec (.ldVxNn x nn) s = .next t ∧ t.readV x = nn ∧
    SameRegistersBut [x] s t ∧ t.i = s.i ∧ t.pc = s.pc ∧ SameStack s t ∧ SameDisplay s t ∧ t.dirty = s.dirty ∧
    SameMemory s t ∧ SameHostInputs s t ∧ SameLatch s t

/-- R101: the add is modulo 256 and writes `V[X]` only: VF is untouched unless it is the destination. -/
def Obligations.AddByteWrapsAndWritesNoFlag : Prop :=
  ∀ (x : Reg) (nn : Byte) (s : State), (encode (.addVxNn x nn)).toNat = 0x7000 + x.val * 256 + nn.toNat ∧
    ∃ t : State, exec (.addVxNn x nn) s = .next t ∧
    (t.readV x).toNat = ((s.readV x).toNat + nn.toNat) % 256 ∧
    SameRegistersBut [x] s t ∧ (x ≠ regVF → t.readV regVF = s.readV regVF) ∧ t.i = s.i ∧ t.pc = s.pc ∧ SameStack s t ∧
    SameDisplay s t ∧ t.dirty = s.dirty ∧ SameMemory s t ∧ SameHostInputs s t ∧ SameLatch s t

/-- R102: the index load writes all 16 bits of `I`, the top four with 0, and nothing else, whatever the address. -/
def Obligations.LoadIndexWritesAllSixteenBits : Prop :=
  ∀ (nnn : Addr12) (s : State), (encode (.ldINnn nnn)).toNat = 0xA000 + nnn.toNat ∧
    ∃ t : State, exec (.ldINnn nnn) s = .next t ∧ t.i.toNat = nnn.toNat ∧
    SameRegistersBut [] s t ∧ t.pc = s.pc ∧ SameStack s t ∧ SameDisplay s t ∧ t.dirty = s.dirty ∧
    SameMemory s t ∧ SameHostInputs s t ∧ SameLatch s t

/-! ## Display -/

/-- R111: the clear leaves every cell false and `DIRTY` true, even on a clear display, and VF as it was. -/
def Obligations.ClearLeavesEveryCellFalseAndSetsDirty : Prop :=
  encode .cls = 0x00E0#16 ∧ ∀ s : State, ∃ t : State, exec .cls s = .next t ∧
    (∀ (cx : Fin 64) (cy : Fin 32), Display.cell t.disp cx cy = false) ∧ t.dirty = true ∧
    SameRegistersBut [] s t ∧ t.i = s.i ∧ t.pc = s.pc ∧ SameStack s t ∧ SameMemory s t ∧ SameHostInputs s t ∧
    SameLatch s t

/-- 44_display.md sections 1 to 3: the draw's loops are XOR compositing of the visible sprite. Where the source range
lies inside the memory, every cell becomes itself xor the sprite's bit on it, VF is the collision flag, `DIRTY` is true
and nothing else changes. The anchor is read before VF is written (D10, notes/assumptions/7.md); the range test is D9. -/
def Obligations.DrawIsXorCompositingOfTheVisibleSprite : Prop :=
  ∀ (x y : Reg) (n : Nibble) (s : State), s.i.toNat + n.toNat ≤ 4096 →
    ∃ t : State, exec (.drw x y n) s = .next t ∧
      (∀ (cx : Fin 64) (cy : Fin 32), Display.cell t.disp cx cy = (Display.cell s.disp cx cy ^^
        spriteBit s n.toNat ((s.readV x).toNat % 64) ((s.readV y).toNat % 32) cx cy)) ∧
      ((∃ (cx : Fin 64) (cy : Fin 32),
        spriteBit s n.toNat ((s.readV x).toNat % 64) ((s.readV y).toNat % 32) cx cy = true ∧
        Display.cell s.disp cx cy = true) → t.readV regVF = 1#8) ∧
      ((¬ ∃ (cx : Fin 64) (cy : Fin 32),
        spriteBit s n.toNat ((s.readV x).toNat % 64) ((s.readV y).toNat % 32) cx cy = true ∧
        Display.cell s.disp cx cy = true) → t.readV regVF = 0#8) ∧
      t.dirty = true ∧ SameRegistersBut [regVF] s t ∧ t.i = s.i ∧ t.pc = s.pc ∧ SameStack s t ∧ SameMemory s t ∧
      SameHostInputs s t ∧ SameLatch s t

/-- 44_display.md section 2, 60_exceptions.md section 1 (D9, D3, D4): a source range past the end of memory traps with
the opcode before VF, the display or `DIRTY` is touched, even where clipping would have kept the rows from being read. -/
def Obligations.DrawPastTheEndOfMemoryTraps : Prop :=
  ∀ (x y : Reg) (n : Nibble) (s : State), s.i.toNat + n.toNat > 4096 →
    ∃ t : State, exec (.drw x y n) s = .next t ∧ t.trapCause = .drawSourceOutOfRange ∧
      t.trapInfo.toNat = 0xD000 + x.val * 256 + y.val * 16 + n.toNat ∧
      SameRegistersBut [] s t ∧ t.i = s.i ∧ t.pc = s.pc ∧ SameStack s t ∧ SameDisplay s t ∧ t.dirty = s.dirty ∧
      SameMemory s t ∧ SameHostInputs s t

/-- 44_display.md section 3: drawing the same sprite twice at the same position restores the display, and the second
draw reports a collision exactly where the first set a cell (notes/assumptions/22.md). The position is the same where
neither anchor register is VF, and also where one is and the flag left in it gives the old anchor (D10,
notes/assumptions/7.md). -/
def Obligations.DrawingTwiceRestoresTheDisplay : Prop :=
  ∀ (x y : Reg) (n : Nibble) (s t u : State),
    ((x ≠ regVF ∧ y ≠ regVF) ∨ (anchorColumn x t = anchorColumn x s ∧ anchorRow y t = anchorRow y s)) →
    s.i.toNat + n.toNat ≤ 4096 → exec (.drw x y n) s = .next t → exec (.drw x y n) t = .next u →
    SameDisplay s u ∧ (u.readV regVF = 0#8 ∨ u.readV regVF = 1#8) ∧
    (u.readV regVF = 1#8 ↔
      ∃ (cx : Fin 64) (cy : Fin 32), Display.cell s.disp cx cy = false ∧ Display.cell t.disp cx cy = true)

/-- 44_display.md section 3: drawing onto a clear region reports no collision, and no cell outside the 8 columns and
`N` rows from the anchor changes: nothing wraps to the opposite edge. The anchor is read before VF is written, for VF as
an anchor register too (D10, notes/assumptions/7.md), and the range test is D9. -/
def Obligations.DrawReportsAndChangesOnlyUnderTheSprite : Prop :=
  ∀ (x y : Reg) (n : Nibble) (s t : State), s.i.toNat + n.toNat ≤ 4096 → exec (.drw x y n) s = .next t →
    ((∀ (cx : Fin 64) (cy : Fin 32), (s.readV x).toNat % 64 ≤ cx.val → cx.val < (s.readV x).toNat % 64 + 8 →
      (s.readV y).toNat % 32 ≤ cy.val → cy.val < (s.readV y).toNat % 32 + n.toNat →
      Display.cell s.disp cx cy = false) → t.readV regVF = 0#8) ∧
    (∀ (cx : Fin 64) (cy : Fin 32), Display.cell t.disp cx cy ≠ Display.cell s.disp cx cy →
      (s.readV x).toNat % 64 ≤ cx.val ∧ cx.val < (s.readV x).toNat % 64 + 8 ∧
      (s.readV y).toNat % 32 ≤ cy.val ∧ cy.val < (s.readV y).toNat % 32 + n.toNat)
end

