-- ==== Sys2Proof/Laws/Decode.lean ====
section
/-! SUPPORT. The fields of packed opcodes, fields as numbers, and what the decoder answers for each major opcode. -/

namespace Sys2Proof

/-! ### Fields as numbers -/

theorem fieldOp_toNat (w : Word) : (fieldOp w).toNat = w.toNat / 4096 := by
  have := w.isLt
  simp [fieldOp, BitVec.extractLsb'_toNat, Nat.shiftRight_eq_div_pow]; omega

theorem fieldX_val (w : Word) : (fieldX w).val = w.toNat / 256 % 16 := by
  simp [fieldX, Nat.shiftRight_eq_div_pow]

theorem fieldY_val (w : Word) : (fieldY w).val = w.toNat / 16 % 16 := by
  simp [fieldY, Nat.shiftRight_eq_div_pow]

theorem fieldN_toNat (w : Word) : (fieldN w).toNat = w.toNat % 16 := by
  simp [fieldN, BitVec.extractLsb'_toNat]

theorem fieldNN_toNat (w : Word) : (fieldNN w).toNat = w.toNat % 256 := by
  simp [fieldNN, BitVec.extractLsb'_toNat]

theorem fieldNNN_toNat (w : Word) : (fieldNNN w).toNat = w.toNat % 4096 := by
  simp [fieldNNN, BitVec.extractLsb'_toNat]

/-! ### Packed opcodes as numbers -/

theorem packA_toNat (op : Nibble) (nnn : Addr12) : (packA op nnn).toNat = op.toNat * 4096 + nnn.toNat := by
  have := nnn.isLt
  simp only [packA, BitVec.toNat_append]
  rw [← Nat.shiftLeft_add_eq_or_of_lt this, Nat.shiftLeft_eq]

theorem packXB_toNat (op : Nibble) (x : Reg) (nn : Byte) :
    (packXB op x nn).toNat = op.toNat * 4096 + x.val * 256 + nn.toNat := by
  have h1 := nn.isLt
  have h2 : x.val < 2 ^ 4 := x.isLt
  simp only [packXB, BitVec.toNat_append, BitVec.toNat_ofFin]
  rw [← Nat.shiftLeft_add_eq_or_of_lt h2, ← Nat.shiftLeft_add_eq_or_of_lt h1, Nat.shiftLeft_eq, Nat.shiftLeft_eq]
  omega

theorem packXYN_toNat (op : Nibble) (x y : Reg) (n : Nibble) :
    (packXYN op x y n).toNat = op.toNat * 4096 + x.val * 256 + y.val * 16 + n.toNat := by
  have h1 := n.isLt
  have h2 : x.val < 2 ^ 4 := x.isLt
  have h3 : y.val < 2 ^ 4 := y.isLt
  simp only [packXYN, BitVec.toNat_append, BitVec.toNat_ofFin]
  rw [← Nat.shiftLeft_add_eq_or_of_lt h2, ← Nat.shiftLeft_add_eq_or_of_lt h3, ← Nat.shiftLeft_add_eq_or_of_lt h1,
    Nat.shiftLeft_eq, Nat.shiftLeft_eq, Nat.shiftLeft_eq]
  omega

/-! ### The fields of a packed opcode -/

@[simp] theorem fieldOp_packA (op : Nibble) (nnn : Addr12) : fieldOp (packA op nnn) = op := by
  have := nnn.isLt
  apply BitVec.eq_of_toNat_eq; rw [fieldOp_toNat, packA_toNat]; omega

@[simp] theorem fieldNNN_packA (op : Nibble) (nnn : Addr12) : fieldNNN (packA op nnn) = nnn := by
  have := nnn.isLt
  apply BitVec.eq_of_toNat_eq; rw [fieldNNN_toNat, packA_toNat]; omega

@[simp] theorem fieldOp_packXB (op : Nibble) (x : Reg) (nn : Byte) : fieldOp (packXB op x nn) = op := by
  have := nn.isLt; have := x.isLt
  apply BitVec.eq_of_toNat_eq; rw [fieldOp_toNat, packXB_toNat]; omega

@[simp] theorem fieldX_packXB (op : Nibble) (x : Reg) (nn : Byte) : fieldX (packXB op x nn) = x := by
  have := nn.isLt; have := x.isLt
  apply Fin.ext; rw [fieldX_val, packXB_toNat]; omega

@[simp] theorem fieldNN_packXB (op : Nibble) (x : Reg) (nn : Byte) : fieldNN (packXB op x nn) = nn := by
  have := nn.isLt; have := x.isLt
  apply BitVec.eq_of_toNat_eq; rw [fieldNN_toNat, packXB_toNat]; omega

@[simp] theorem fieldOp_packXYN (op : Nibble) (x y : Reg) (n : Nibble) : fieldOp (packXYN op x y n) = op := by
  have := n.isLt; have := x.isLt; have := y.isLt
  apply BitVec.eq_of_toNat_eq; rw [fieldOp_toNat, packXYN_toNat]; omega

@[simp] theorem fieldX_packXYN (op : Nibble) (x y : Reg) (n : Nibble) : fieldX (packXYN op x y n) = x := by
  have := n.isLt; have := x.isLt; have := y.isLt
  apply Fin.ext; rw [fieldX_val, packXYN_toNat]; omega

@[simp] theorem fieldY_packXYN (op : Nibble) (x y : Reg) (n : Nibble) : fieldY (packXYN op x y n) = y := by
  have := n.isLt; have := x.isLt; have := y.isLt
  apply Fin.ext; rw [fieldY_val, packXYN_toNat]; omega

@[simp] theorem fieldN_packXYN (op : Nibble) (x y : Reg) (n : Nibble) : fieldN (packXYN op x y n) = n := by
  have := n.isLt; have := x.isLt; have := y.isLt
  apply BitVec.eq_of_toNat_eq; rw [fieldN_toNat, packXYN_toNat]; omega

/-! ### The decoder by major opcode -/

theorem decodeFamily0_cases (w : Word) :
    (w = 0x00E0#16 ∧ decodeFamily0 w = .instruction .cls) ∨
    (w = 0x00EE#16 ∧ decodeFamily0 w = .instruction .ret) ∨
    (w ≠ 0x00E0#16 ∧ w ≠ 0x00EE#16 ∧ decodeFamily0 w = .unrecognized w) := by
  unfold decodeFamily0
  split
  · exact .inl ⟨‹_›, rfl⟩
  · split
    · exact .inr (.inl ⟨‹_›, rfl⟩)
    · exact .inr (.inr ⟨‹_›, ‹_›, rfl⟩)

theorem decodeXY_cases (w : Word) (i : Instr) :
    (w.toNat % 16 = 0 ∧ decodeXY w i = .instruction i) ∨
    (w.toNat % 16 ≠ 0 ∧ decodeXY w i = .unrecognized w) := by
  have h : fieldN w = 0#4 ↔ w.toNat % 16 = 0 := by
    rw [← fieldN_toNat, BitVec.toNat_eq]; rfl
  unfold decodeXY
  split
  · exact .inl ⟨h.1 ‹_›, rfl⟩
  · exact .inr ⟨fun h' => ‹¬ fieldN w = 0#4› (h.2 h'), rfl⟩

/-- Everything the decoder can answer, by the value of the opcode. -/
theorem decode_cases (w : Word) :
    (w = 0x00E0#16 ∧ decode w = .instruction .cls) ∨
    (w = 0x00EE#16 ∧ decode w = .instruction .ret) ∨
    (w.toNat / 4096 = 1 ∧ decode w = .instruction (.jp (fieldNNN w))) ∨
    (w.toNat / 4096 = 2 ∧ decode w = .instruction (.call (fieldNNN w))) ∨
    (w.toNat / 4096 = 3 ∧ decode w = .instruction (.seVxNn (fieldX w) (fieldNN w))) ∨
    (w.toNat / 4096 = 4 ∧ decode w = .instruction (.sneVxNn (fieldX w) (fieldNN w))) ∨
    (w.toNat / 4096 = 5 ∧ w.toNat % 16 = 0 ∧ decode w = .instruction (.seVxVy (fieldX w) (fieldY w))) ∨
    (w.toNat / 4096 = 6 ∧ decode w = .instruction (.ldVxNn (fieldX w) (fieldNN w))) ∨
    (w.toNat / 4096 = 7 ∧ decode w = .instruction (.addVxNn (fieldX w) (fieldNN w))) ∨
    (w.toNat / 4096 = 9 ∧ w.toNat % 16 = 0 ∧ decode w = .instruction (.sneVxVy (fieldX w) (fieldY w))) ∨
    (w.toNat / 4096 = 10 ∧ decode w = .instruction (.ldINnn (fieldNNN w))) ∨
    (w.toNat / 4096 = 13 ∧ decode w = .instruction (.drw (fieldX w) (fieldY w) (fieldN w))) ∨
    (((w.toNat / 4096 = 0 ∧ w ≠ 0x00E0#16 ∧ w ≠ 0x00EE#16) ∨
      ((w.toNat / 4096 = 5 ∨ w.toNat / 4096 = 9) ∧ w.toNat % 16 ≠ 0) ∨
      w.toNat / 4096 = 8 ∨ w.toNat / 4096 = 11 ∨ w.toNat / 4096 = 12 ∨ w.toNat / 4096 = 14 ∨ w.toNat / 4096 = 15) ∧
      decode w = .unrecognized w) := by
  have hlt : w.toNat / 4096 < 16 := by have := w.isLt; omega
  have h0 := decodeFamily0_cases w
  have h5 := decodeXY_cases w (.seVxVy (fieldX w) (fieldY w))
  have h9 := decodeXY_cases w (.sneVxVy (fieldX w) (fieldY w))
  unfold decode
  rw [fieldOp_toNat]
  generalize w.toNat / 4096 = k at hlt ⊢
  interval_cases k <;> simp <;> tauto

end Sys2Proof
end

