-- ==== Sys2Proof/Laws/State.lean ====
section
/-! SUPPORT. One lemma per field per update of State, each true by rfl, and reading a register after writing one. -/

namespace Sys2Proof.Machine

variable (s : State)

/-! ### setV -/
@[simp] theorem State.setV_v (x : Reg) (b : Byte) : (s.setV x b).v = s.v.set x.val b := rfl
@[simp] theorem State.setV_i (x : Reg) (b : Byte) : (s.setV x b).i = s.i := rfl
@[simp] theorem State.setV_pc (x : Reg) (b : Byte) : (s.setV x b).pc = s.pc := rfl
@[simp] theorem State.setV_sp (x : Reg) (b : Byte) : (s.setV x b).sp = s.sp := rfl
@[simp] theorem State.setV_stack (x : Reg) (b : Byte) : (s.setV x b).stack = s.stack := rfl
@[simp] theorem State.setV_dt (x : Reg) (b : Byte) : (s.setV x b).dt = s.dt := rfl
@[simp] theorem State.setV_st (x : Reg) (b : Byte) : (s.setV x b).st = s.st := rfl
@[simp] theorem State.setV_keys (x : Reg) (b : Byte) : (s.setV x b).keys = s.keys := rfl
@[simp] theorem State.setV_mem (x : Reg) (b : Byte) : (s.setV x b).mem = s.mem := rfl
@[simp] theorem State.setV_disp (x : Reg) (b : Byte) : (s.setV x b).disp = s.disp := rfl
@[simp] theorem State.setV_dirty (x : Reg) (b : Byte) : (s.setV x b).dirty = s.dirty := rfl
@[simp] theorem State.setV_trapCause (x : Reg) (b : Byte) : (s.setV x b).trapCause = s.trapCause := rfl
@[simp] theorem State.setV_trapInfo (x : Reg) (b : Byte) : (s.setV x b).trapInfo = s.trapInfo := rfl

/-! ### setI -/
@[simp] theorem State.setI_v (w : Word) : (s.setI w).v = s.v := rfl
@[simp] theorem State.setI_i (w : Word) : (s.setI w).i = w := rfl
@[simp] theorem State.setI_pc (w : Word) : (s.setI w).pc = s.pc := rfl
@[simp] theorem State.setI_sp (w : Word) : (s.setI w).sp = s.sp := rfl
@[simp] theorem State.setI_stack (w : Word) : (s.setI w).stack = s.stack := rfl
@[simp] theorem State.setI_dt (w : Word) : (s.setI w).dt = s.dt := rfl
@[simp] theorem State.setI_st (w : Word) : (s.setI w).st = s.st := rfl
@[simp] theorem State.setI_keys (w : Word) : (s.setI w).keys = s.keys := rfl
@[simp] theorem State.setI_mem (w : Word) : (s.setI w).mem = s.mem := rfl
@[simp] theorem State.setI_disp (w : Word) : (s.setI w).disp = s.disp := rfl
@[simp] theorem State.setI_dirty (w : Word) : (s.setI w).dirty = s.dirty := rfl
@[simp] theorem State.setI_trapCause (w : Word) : (s.setI w).trapCause = s.trapCause := rfl
@[simp] theorem State.setI_trapInfo (w : Word) : (s.setI w).trapInfo = s.trapInfo := rfl

/-! ### setPc -/
@[simp] theorem State.setPc_v (w : Word) : (s.setPc w).v = s.v := rfl
@[simp] theorem State.setPc_i (w : Word) : (s.setPc w).i = s.i := rfl
@[simp] theorem State.setPc_pc (w : Word) : (s.setPc w).pc = w := rfl
@[simp] theorem State.setPc_sp (w : Word) : (s.setPc w).sp = s.sp := rfl
@[simp] theorem State.setPc_stack (w : Word) : (s.setPc w).stack = s.stack := rfl
@[simp] theorem State.setPc_dt (w : Word) : (s.setPc w).dt = s.dt := rfl
@[simp] theorem State.setPc_st (w : Word) : (s.setPc w).st = s.st := rfl
@[simp] theorem State.setPc_keys (w : Word) : (s.setPc w).keys = s.keys := rfl
@[simp] theorem State.setPc_mem (w : Word) : (s.setPc w).mem = s.mem := rfl
@[simp] theorem State.setPc_disp (w : Word) : (s.setPc w).disp = s.disp := rfl
@[simp] theorem State.setPc_dirty (w : Word) : (s.setPc w).dirty = s.dirty := rfl
@[simp] theorem State.setPc_trapCause (w : Word) : (s.setPc w).trapCause = s.trapCause := rfl
@[simp] theorem State.setPc_trapInfo (w : Word) : (s.setPc w).trapInfo = s.trapInfo := rfl

/-! ### setSp -/
@[simp] theorem State.setSp_v (b : Byte) : (s.setSp b).v = s.v := rfl
@[simp] theorem State.setSp_i (b : Byte) : (s.setSp b).i = s.i := rfl
@[simp] theorem State.setSp_pc (b : Byte) : (s.setSp b).pc = s.pc := rfl
@[simp] theorem State.setSp_sp (b : Byte) : (s.setSp b).sp = b := rfl
@[simp] theorem State.setSp_stack (b : Byte) : (s.setSp b).stack = s.stack := rfl
@[simp] theorem State.setSp_dt (b : Byte) : (s.setSp b).dt = s.dt := rfl
@[simp] theorem State.setSp_st (b : Byte) : (s.setSp b).st = s.st := rfl
@[simp] theorem State.setSp_keys (b : Byte) : (s.setSp b).keys = s.keys := rfl
@[simp] theorem State.setSp_mem (b : Byte) : (s.setSp b).mem = s.mem := rfl
@[simp] theorem State.setSp_disp (b : Byte) : (s.setSp b).disp = s.disp := rfl
@[simp] theorem State.setSp_dirty (b : Byte) : (s.setSp b).dirty = s.dirty := rfl
@[simp] theorem State.setSp_trapCause (b : Byte) : (s.setSp b).trapCause = s.trapCause := rfl
@[simp] theorem State.setSp_trapInfo (b : Byte) : (s.setSp b).trapInfo = s.trapInfo := rfl

/-! ### setStack -/
@[simp] theorem State.setStack_v (j : Fin 16) (w : Word) : (s.setStack j w).v = s.v := rfl
@[simp] theorem State.setStack_i (j : Fin 16) (w : Word) : (s.setStack j w).i = s.i := rfl
@[simp] theorem State.setStack_pc (j : Fin 16) (w : Word) : (s.setStack j w).pc = s.pc := rfl
@[simp] theorem State.setStack_sp (j : Fin 16) (w : Word) : (s.setStack j w).sp = s.sp := rfl
@[simp] theorem State.setStack_stack (j : Fin 16) (w : Word) : (s.setStack j w).stack = s.stack.set j.val w := rfl
@[simp] theorem State.setStack_dt (j : Fin 16) (w : Word) : (s.setStack j w).dt = s.dt := rfl
@[simp] theorem State.setStack_st (j : Fin 16) (w : Word) : (s.setStack j w).st = s.st := rfl
@[simp] theorem State.setStack_keys (j : Fin 16) (w : Word) : (s.setStack j w).keys = s.keys := rfl
@[simp] theorem State.setStack_mem (j : Fin 16) (w : Word) : (s.setStack j w).mem = s.mem := rfl
@[simp] theorem State.setStack_disp (j : Fin 16) (w : Word) : (s.setStack j w).disp = s.disp := rfl
@[simp] theorem State.setStack_dirty (j : Fin 16) (w : Word) : (s.setStack j w).dirty = s.dirty := rfl
@[simp] theorem State.setStack_trapCause (j : Fin 16) (w : Word) : (s.setStack j w).trapCause = s.trapCause := rfl
@[simp] theorem State.setStack_trapInfo (j : Fin 16) (w : Word) : (s.setStack j w).trapInfo = s.trapInfo := rfl

/-! ### setDisp -/
@[simp] theorem State.setDisp_v (d : Display) : (s.setDisp d).v = s.v := rfl
@[simp] theorem State.setDisp_i (d : Display) : (s.setDisp d).i = s.i := rfl
@[simp] theorem State.setDisp_pc (d : Display) : (s.setDisp d).pc = s.pc := rfl
@[simp] theorem State.setDisp_sp (d : Display) : (s.setDisp d).sp = s.sp := rfl
@[simp] theorem State.setDisp_stack (d : Display) : (s.setDisp d).stack = s.stack := rfl
@[simp] theorem State.setDisp_dt (d : Display) : (s.setDisp d).dt = s.dt := rfl
@[simp] theorem State.setDisp_st (d : Display) : (s.setDisp d).st = s.st := rfl
@[simp] theorem State.setDisp_keys (d : Display) : (s.setDisp d).keys = s.keys := rfl
@[simp] theorem State.setDisp_mem (d : Display) : (s.setDisp d).mem = s.mem := rfl
@[simp] theorem State.setDisp_disp (d : Display) : (s.setDisp d).disp = d := rfl
@[simp] theorem State.setDisp_dirty (d : Display) : (s.setDisp d).dirty = s.dirty := rfl
@[simp] theorem State.setDisp_trapCause (d : Display) : (s.setDisp d).trapCause = s.trapCause := rfl
@[simp] theorem State.setDisp_trapInfo (d : Display) : (s.setDisp d).trapInfo = s.trapInfo := rfl

/-! ### setDirty -/
@[simp] theorem State.setDirty_v (b : Bool) : (s.setDirty b).v = s.v := rfl
@[simp] theorem State.setDirty_i (b : Bool) : (s.setDirty b).i = s.i := rfl
@[simp] theorem State.setDirty_pc (b : Bool) : (s.setDirty b).pc = s.pc := rfl
@[simp] theorem State.setDirty_sp (b : Bool) : (s.setDirty b).sp = s.sp := rfl
@[simp] theorem State.setDirty_stack (b : Bool) : (s.setDirty b).stack = s.stack := rfl
@[simp] theorem State.setDirty_dt (b : Bool) : (s.setDirty b).dt = s.dt := rfl
@[simp] theorem State.setDirty_st (b : Bool) : (s.setDirty b).st = s.st := rfl
@[simp] theorem State.setDirty_keys (b : Bool) : (s.setDirty b).keys = s.keys := rfl
@[simp] theorem State.setDirty_mem (b : Bool) : (s.setDirty b).mem = s.mem := rfl
@[simp] theorem State.setDirty_disp (b : Bool) : (s.setDirty b).disp = s.disp := rfl
@[simp] theorem State.setDirty_dirty (b : Bool) : (s.setDirty b).dirty = b := rfl
@[simp] theorem State.setDirty_trapCause (b : Bool) : (s.setDirty b).trapCause = s.trapCause := rfl
@[simp] theorem State.setDirty_trapInfo (b : Bool) : (s.setDirty b).trapInfo = s.trapInfo := rfl

/-! ### setMem -/
@[simp] theorem State.setMem_v (m : Memory) : (s.setMem m).v = s.v := rfl
@[simp] theorem State.setMem_i (m : Memory) : (s.setMem m).i = s.i := rfl
@[simp] theorem State.setMem_pc (m : Memory) : (s.setMem m).pc = s.pc := rfl
@[simp] theorem State.setMem_sp (m : Memory) : (s.setMem m).sp = s.sp := rfl
@[simp] theorem State.setMem_stack (m : Memory) : (s.setMem m).stack = s.stack := rfl
@[simp] theorem State.setMem_dt (m : Memory) : (s.setMem m).dt = s.dt := rfl
@[simp] theorem State.setMem_st (m : Memory) : (s.setMem m).st = s.st := rfl
@[simp] theorem State.setMem_keys (m : Memory) : (s.setMem m).keys = s.keys := rfl
@[simp] theorem State.setMem_mem (m : Memory) : (s.setMem m).mem = m := rfl
@[simp] theorem State.setMem_disp (m : Memory) : (s.setMem m).disp = s.disp := rfl
@[simp] theorem State.setMem_dirty (m : Memory) : (s.setMem m).dirty = s.dirty := rfl
@[simp] theorem State.setMem_trapCause (m : Memory) : (s.setMem m).trapCause = s.trapCause := rfl
@[simp] theorem State.setMem_trapInfo (m : Memory) : (s.setMem m).trapInfo = s.trapInfo := rfl

/-! ### setDt -/
@[simp] theorem State.setDt_v (b : Byte) : (s.setDt b).v = s.v := rfl
@[simp] theorem State.setDt_i (b : Byte) : (s.setDt b).i = s.i := rfl
@[simp] theorem State.setDt_pc (b : Byte) : (s.setDt b).pc = s.pc := rfl
@[simp] theorem State.setDt_sp (b : Byte) : (s.setDt b).sp = s.sp := rfl
@[simp] theorem State.setDt_stack (b : Byte) : (s.setDt b).stack = s.stack := rfl
@[simp] theorem State.setDt_dt (b : Byte) : (s.setDt b).dt = b := rfl
@[simp] theorem State.setDt_st (b : Byte) : (s.setDt b).st = s.st := rfl
@[simp] theorem State.setDt_keys (b : Byte) : (s.setDt b).keys = s.keys := rfl
@[simp] theorem State.setDt_mem (b : Byte) : (s.setDt b).mem = s.mem := rfl
@[simp] theorem State.setDt_disp (b : Byte) : (s.setDt b).disp = s.disp := rfl
@[simp] theorem State.setDt_dirty (b : Byte) : (s.setDt b).dirty = s.dirty := rfl
@[simp] theorem State.setDt_trapCause (b : Byte) : (s.setDt b).trapCause = s.trapCause := rfl
@[simp] theorem State.setDt_trapInfo (b : Byte) : (s.setDt b).trapInfo = s.trapInfo := rfl

/-! ### setSt -/
@[simp] theorem State.setSt_v (b : Byte) : (s.setSt b).v = s.v := rfl
@[simp] theorem State.setSt_i (b : Byte) : (s.setSt b).i = s.i := rfl
@[simp] theorem State.setSt_pc (b : Byte) : (s.setSt b).pc = s.pc := rfl
@[simp] theorem State.setSt_sp (b : Byte) : (s.setSt b).sp = s.sp := rfl
@[simp] theorem State.setSt_stack (b : Byte) : (s.setSt b).stack = s.stack := rfl
@[simp] theorem State.setSt_dt (b : Byte) : (s.setSt b).dt = s.dt := rfl
@[simp] theorem State.setSt_st (b : Byte) : (s.setSt b).st = b := rfl
@[simp] theorem State.setSt_keys (b : Byte) : (s.setSt b).keys = s.keys := rfl
@[simp] theorem State.setSt_mem (b : Byte) : (s.setSt b).mem = s.mem := rfl
@[simp] theorem State.setSt_disp (b : Byte) : (s.setSt b).disp = s.disp := rfl
@[simp] theorem State.setSt_dirty (b : Byte) : (s.setSt b).dirty = s.dirty := rfl
@[simp] theorem State.setSt_trapCause (b : Byte) : (s.setSt b).trapCause = s.trapCause := rfl
@[simp] theorem State.setSt_trapInfo (b : Byte) : (s.setSt b).trapInfo = s.trapInfo := rfl

/-! ### setKey -/
@[simp] theorem State.setKey_v (k : Fin 16) (b : Bool) : (s.setKey k b).v = s.v := rfl
@[simp] theorem State.setKey_i (k : Fin 16) (b : Bool) : (s.setKey k b).i = s.i := rfl
@[simp] theorem State.setKey_pc (k : Fin 16) (b : Bool) : (s.setKey k b).pc = s.pc := rfl
@[simp] theorem State.setKey_sp (k : Fin 16) (b : Bool) : (s.setKey k b).sp = s.sp := rfl
@[simp] theorem State.setKey_stack (k : Fin 16) (b : Bool) : (s.setKey k b).stack = s.stack := rfl
@[simp] theorem State.setKey_dt (k : Fin 16) (b : Bool) : (s.setKey k b).dt = s.dt := rfl
@[simp] theorem State.setKey_st (k : Fin 16) (b : Bool) : (s.setKey k b).st = s.st := rfl
@[simp] theorem State.setKey_keys (k : Fin 16) (b : Bool) : (s.setKey k b).keys = s.keys.set k.val b := rfl
@[simp] theorem State.setKey_mem (k : Fin 16) (b : Bool) : (s.setKey k b).mem = s.mem := rfl
@[simp] theorem State.setKey_disp (k : Fin 16) (b : Bool) : (s.setKey k b).disp = s.disp := rfl
@[simp] theorem State.setKey_dirty (k : Fin 16) (b : Bool) : (s.setKey k b).dirty = s.dirty := rfl
@[simp] theorem State.setKey_trapCause (k : Fin 16) (b : Bool) : (s.setKey k b).trapCause = s.trapCause := rfl
@[simp] theorem State.setKey_trapInfo (k : Fin 16) (b : Bool) : (s.setKey k b).trapInfo = s.trapInfo := rfl

/-! ### setTrap -/
@[simp] theorem State.setTrap_v (c : TrapCause) (w : Word) : (s.setTrap c w).v = s.v := rfl
@[simp] theorem State.setTrap_i (c : TrapCause) (w : Word) : (s.setTrap c w).i = s.i := rfl
@[simp] theorem State.setTrap_pc (c : TrapCause) (w : Word) : (s.setTrap c w).pc = s.pc := rfl
@[simp] theorem State.setTrap_sp (c : TrapCause) (w : Word) : (s.setTrap c w).sp = s.sp := rfl
@[simp] theorem State.setTrap_stack (c : TrapCause) (w : Word) : (s.setTrap c w).stack = s.stack := rfl
@[simp] theorem State.setTrap_dt (c : TrapCause) (w : Word) : (s.setTrap c w).dt = s.dt := rfl
@[simp] theorem State.setTrap_st (c : TrapCause) (w : Word) : (s.setTrap c w).st = s.st := rfl
@[simp] theorem State.setTrap_keys (c : TrapCause) (w : Word) : (s.setTrap c w).keys = s.keys := rfl
@[simp] theorem State.setTrap_mem (c : TrapCause) (w : Word) : (s.setTrap c w).mem = s.mem := rfl
@[simp] theorem State.setTrap_disp (c : TrapCause) (w : Word) : (s.setTrap c w).disp = s.disp := rfl
@[simp] theorem State.setTrap_dirty (c : TrapCause) (w : Word) : (s.setTrap c w).dirty = s.dirty := rfl
@[simp] theorem State.setTrap_trapCause (c : TrapCause) (w : Word) : (s.setTrap c w).trapCause = c := rfl
@[simp] theorem State.setTrap_trapInfo (c : TrapCause) (w : Word) : (s.setTrap c w).trapInfo = w := rfl

/-! ### Registers -/

@[simp] theorem State.readV_setV_self (x : Reg) (b : Byte) : (s.setV x b).readV x = b := by
  simp [State.readV]

theorem State.readV_setV_of_ne (x y : Reg) (b : Byte) (h : y ≠ x) : (s.setV x b).readV y = s.readV y := by
  simp [State.readV, Fin.val_inj, h.symm]

/-- A register file is determined by its reads. -/
theorem State.v_ext {s t : State} (h : ∀ x : Reg, t.readV x = s.readV x) : t.v = s.v := by
  refine Vector.ext fun j hj => ?_
  exact h ⟨j, hj⟩

end Sys2Proof.Machine
end

