-- ==== Sys2Proof/Laws/Memory.lean ====
section
/-! SUPPORT. The memory: every operation keeps the canonical form, and what a read gives after a write. -/

namespace Sys2Proof.Machine

/-! ### The canonical form -/

theorem Memory.wf_nil : Memory.wf ([] : Memory) := by simp [Memory.wf]

theorem reset_mem_wf : State.reset.mem.wf := Memory.wf_nil

theorem Memory.wf_tail {q : Host.Cell} {m : Memory} (h : Memory.wf (q :: m)) : Memory.wf m :=
  ⟨(List.pairwise_cons.1 h.1).2, fun p hp => h.2 p (List.mem_cons_of_mem _ hp)⟩

theorem Memory.wf_cons {q : Host.Cell} {m : Memory} :
    Memory.wf (q :: m) ↔
      (∀ p ∈ m, q.1 < p.1) ∧ (q.1 < Config.memSize ∧ q.2 ≠ resetByte q.1) ∧ Memory.wf m := by
  simp only [Memory.wf, List.pairwise_cons, List.forall_mem_cons]
  tauto

theorem Memory.mem_entry {p : Host.Cell} {a : Nat} {b : Byte} :
    p ∈ Memory.entry a b ↔ p = (a, b) ∧ b ≠ resetByte a := by
  unfold Memory.entry
  split <;> simp_all

/-- The addresses a `put` can list: those listed before and the one put. -/
theorem Memory.mem_put {p : Host.Cell} {m : Memory} {a : Nat} {b : Byte} (h : p ∈ m.put a b) :
    p ∈ m ∨ (p = (a, b) ∧ b ≠ resetByte a) := by
  induction m with
  | nil => exact .inr (Memory.mem_entry.1 h)
  | cons q m ih =>
    obtain ⟨k, c⟩ := q
    simp only [Memory.put] at h
    split at h
    · rcases List.mem_append.1 h with h | h
      · exact .inr (Memory.mem_entry.1 h)
      · exact .inl h
    · split at h
      · rcases List.mem_append.1 h with h | h
        · exact .inr (Memory.mem_entry.1 h)
        · exact .inl (List.mem_cons_of_mem _ h)
      · rcases List.mem_cons.1 h with h | h
        · exact .inl (h ▸ List.mem_cons_self)
        · exact (ih h).imp (List.mem_cons_of_mem _) id

theorem Memory.wf_entry_append {m : Memory} {a : Nat} {b : Byte} (hm : m.wf) (ha : a < Config.memSize)
    (h : ∀ p ∈ m, a < p.1) : Memory.wf (Memory.entry a b ++ m) := by
  unfold Memory.entry
  split
  · exact hm
  · exact Memory.wf_cons.2 ⟨h, ⟨ha, by assumption⟩, hm⟩

theorem Memory.put_wf {m : Memory} {a : Nat} {b : Byte} (hm : m.wf) (ha : a < Config.memSize) :
    (m.put a b).wf := by
  induction m with
  | nil => simpa [Memory.put] using Memory.wf_entry_append (b := b) Memory.wf_nil ha (by simp)
  | cons q m ih =>
    obtain ⟨k, c⟩ := q
    obtain ⟨hlt, hq, hm'⟩ := Memory.wf_cons.1 hm
    simp only [Memory.put]
    split
    · refine Memory.wf_entry_append hm ha fun p hp => ?_
      rcases List.mem_cons.1 hp with rfl | hp
      · assumption
      · exact Nat.lt_trans ‹_› (hlt p hp)
    · split
      · subst_vars; exact Memory.wf_entry_append hm' ha hlt
      · refine Memory.wf_cons.2 ⟨fun p hp => ?_, hq, ih hm'⟩
        rcases Memory.mem_put hp with hp | ⟨rfl, -⟩
        · exact hlt p hp
        · show k < a; omega

theorem Memory.write_wf {m : Memory} (a : Nat) (b : Byte) (hm : m.wf) : (m.write a b).wf := by
  unfold Memory.write
  split
  · exact Memory.put_wf hm ‹_›
  · exact hm

theorem Memory.writeBytes_wf {m : Memory} (a : Nat) (bs : List Byte) (hm : m.wf) : (m.writeBytes a bs).wf := by
  induction bs generalizing m a with
  | nil => exact hm
  | cons b bs ih => exact ih _ (Memory.write_wf a b hm)

/-! ### Reading after writing -/

/-- A cell below every listed address has its reset contents. -/
theorem Memory.cell_of_lt {m : Memory} {a : Nat} (h : ∀ p ∈ m, a < p.1) : m.cell a = resetByte a := by
  induction m with
  | nil => rfl
  | cons q m ih =>
    have h1 : a < q.1 := h q List.mem_cons_self
    simp only [Memory.cell, Nat.ne_of_lt h1, if_false]
    exact ih fun p hp => h p (List.mem_cons_of_mem _ hp)

theorem Memory.cell_entry_append (m : Memory) (a c : Nat) (b : Byte) (h : ∀ p ∈ m, a < p.1) :
    Memory.cell (Memory.entry a b ++ m) c = if c = a then b else m.cell c := by
  unfold Memory.entry
  split
  · split
    · subst_vars; exact Memory.cell_of_lt h
    · rfl
  · rfl

theorem Memory.cell_put {m : Memory} (hm : m.wf) (a c : Nat) (b : Byte) :
    (m.put a b).cell c = if c = a then b else m.cell c := by
  induction m with
  | nil => simpa [Memory.put] using Memory.cell_entry_append [] a c b (by simp)
  | cons q m ih =>
    obtain ⟨k, d⟩ := q
    obtain ⟨hlt, hq, hm'⟩ := Memory.wf_cons.1 hm
    simp only [Memory.put]
    split
    · refine Memory.cell_entry_append _ a c b fun p hp => ?_
      rcases List.mem_cons.1 hp with rfl | hp
      · assumption
      · exact Nat.lt_trans ‹_› (hlt p hp)
    · split
      · subst_vars
        rw [Memory.cell_entry_append m _ c b hlt]
        by_cases h : c = k <;> simp [Memory.cell, h]
      · simp only [Memory.cell, ih hm']
        by_cases h : c = k
        · have : c ≠ a := by omega
          simp [h]; omega
        · simp [h]

/-- A byte written is read back, and every other byte reads as before. -/
theorem Memory.read?_write {m : Memory} (hm : m.wf) (a c : Nat) (b : Byte) :
    (m.write a b).read? c = if c = a ∧ c < Config.memSize then some b else m.read? c := by
  unfold Memory.write Memory.read?
  by_cases ha : a < Config.memSize
  · by_cases hc : c < Config.memSize
    · simp only [ha, hc, if_true, and_true, Memory.cell_put hm]
      split <;> rfl
    · simp only [hc, and_false, if_false]
  · by_cases h : c = a
    · subst h; simp only [ha, and_false, if_false]
    · simp only [ha, h, false_and, if_false]

/-- What a read gives after a byte sequence is written that lies inside the memory. -/
theorem Memory.read?_writeBytes {m : Memory} (hm : m.wf) (a c : Nat) (bs : List Byte)
    (hb : a + bs.length ≤ Config.memSize) :
    (m.writeBytes a bs).read? c = if a ≤ c then (bs[c - a]?).or (m.read? c) else m.read? c := by
  induction bs generalizing m a with
  | nil => simp [Memory.writeBytes]
  | cons b bs ih =>
    simp only [List.length_cons] at hb
    rw [Memory.writeBytes, ih (Memory.write_wf a b hm) (a + 1) (by omega), Memory.read?_write hm]
    rcases Nat.lt_trichotomy c a with h | h | h
    · have h1 : ¬ a + 1 ≤ c := by omega
      have h2 : ¬ a ≤ c := by omega
      have h3 : ¬ c = a := by omega
      simp [h1, h2, h3]
    · subst h
      have : c < Config.memSize := by omega
      simp_all
    · have h1 : a + 1 ≤ c := by omega
      have h2 : a ≤ c := by omega
      have h3 : ¬ c = a := by omega
      have h4 : c - a = (c - (a + 1)) + 1 := by omega
      simp [h1, h2, h3, h4]

/-! ### Reads -/

theorem Memory.read?_eq_some {m : Memory} {a : Nat} (h : a < 4096) : m.read? a = some (m.cell a) := by
  simp [Memory.read?, h]

theorem Memory.read?_eq_none {m : Memory} {a : Nat} (h : 4096 ≤ a) : m.read? a = none := by
  simp [Memory.read?, Nat.not_lt.2 h]

theorem Memory.read?_reset (a : Nat) : Memory.read? [] a = if a < 4096 then some (resetByte a) else none := rfl

/-- The fetch reads nothing exactly above 0xFFE. -/
theorem Memory.fetch?_eq_none_iff (m : Memory) (p : Nat) : m.fetch? p = none ↔ p > 0xFFE := by
  unfold Memory.fetch?
  by_cases h : p > 0xFFE
  · simp [h]
  · have h1 : p < 4096 := by omega
    have h2 : p + 1 < 4096 := by omega
    simp [h, Memory.read?_eq_some h1, Memory.read?_eq_some h2]

/-- Inside the memory the fetch gives the two bytes, high byte first. -/
theorem Memory.fetch?_eq_some {m : Memory} {p : Nat} {hi lo : Byte} (h1 : m.read? p = some hi)
    (h2 : m.read? (p + 1) = some lo) : m.fetch? p = some (opcodeOfBytes hi lo) := by
  have h : ¬ p > 0xFFE := by
    intro h
    rw [Memory.read?_eq_none (by omega)] at h2
    cases h2
  simp [Memory.fetch?, h, h1, h2]

/-- Reading `n` bytes succeeds whenever all of them lie inside the memory. -/
theorem Memory.readBytes?_isSome {m : Memory} {a n : Nat} (h : a + n ≤ 4096) :
    ∃ bs, m.readBytes? a n = some bs ∧ bs.length = n := by
  induction n generalizing a with
  | zero => exact ⟨[], rfl, rfl⟩
  | succ n ih =>
    obtain ⟨bs, hbs, hl⟩ := ih (a := a + 1) (by omega)
    exact ⟨m.cell a :: bs, by simp [Memory.readBytes?, Memory.read?_eq_some (show a < 4096 by omega), hbs], by simp [hl]⟩

/-- Byte `r` of a byte sequence read from `a` is the byte at `a + r`. -/
theorem Memory.getElem?_readBytes? {m : Memory} {a n : Nat} {bs : List Byte} (h : m.readBytes? a n = some bs) :
    bs.length = n ∧ ∀ r < n, m.read? (a + r) = bs[r]? := by
  induction n generalizing a bs with
  | zero => simp only [Memory.readBytes?, Option.some.injEq] at h; subst h; simp
  | succ n ih =>
    simp only [Memory.readBytes?] at h
    split at h
    · rename_i b bs' h1 h2
      obtain rfl : b :: bs' = bs := by simpa using h
      obtain ⟨hl, hr⟩ := ih h2
      refine ⟨by simp [hl], fun r hr' => ?_⟩
      cases r with
      | zero => simpa using h1
      | succ r => simpa [Nat.add_assoc, Nat.add_comm 1 r] using hr r (by omega)
    · cases h

end Sys2Proof.Machine
end

