-- ==== Sys2Proof/Laws/Ops.lean ====
section
/-! SUPPORT. One lemma per shared operation that says everything it can do: stack, skips, sprite source, and the display
engine's loops in closed form. -/

namespace Sys2Proof.Machine

/-! ### Stages of a step -/

@[simp] theorem beginStep_eq (s : State) : beginStep s = s.setDirty false := rfl

@[simp] theorem advancePc_eq (s : State) : advancePc s = s.setPc (s.pc + 2#16) := rfl

@[simp] theorem skipNext_eq (s : State) : skipNext s = s.setPc (s.pc + 2#16) := rfl

/-! ### Stack -/

/-- A push succeeds exactly below 16 entries, and then writes the entry `SP` and increments `SP`. -/
theorem push?_cases (w : Word) (s : State) :
    (∃ h : s.sp.toNat < 16, push? w s = some ((s.setStack ⟨s.sp.toNat, h⟩ w).setSp (s.sp + 1#8))) ∨
    (16 ≤ s.sp.toNat ∧ push? w s = none) := by
  unfold push?
  split
  · exact .inl ⟨‹_›, rfl⟩
  · exact .inr ⟨by omega, rfl⟩

/-- A pop fails exactly on the empty stack, and otherwise decrements `SP` and answers the entry there. -/
theorem pop?_cases (s : State) :
    (s.sp = 0#8 ∧ pop? s = none) ∨
    (s.sp ≠ 0#8 ∧ pop? s = some (stackEntry s (s.sp - 1#8), s.setSp (s.sp - 1#8))) := by
  unfold pop?
  split
  · exact .inl ⟨‹_›, rfl⟩
  · exact .inr ⟨‹_›, rfl⟩

theorem stackEntry_of_lt {s : State} {j : Byte} (h : j.toNat < 16) : stackEntry s j = s.stack[j.toNat] := by
  simp [stackEntry, h]

theorem sp_succ_toNat {b : Byte} (h : b.toNat < 16) : (b + 1#8).toNat = b.toNat + 1 := by
  rw [BitVec.toNat_add]; simp; omega

theorem sp_pred_toNat {b : Byte} (h : b ≠ 0#8) : (b - 1#8).toNat + 1 = b.toNat := by
  have h0 : b.toNat ≠ 0 := fun h' => h (BitVec.eq_of_toNat_eq h')
  have := b.isLt
  rw [BitVec.toNat_sub]; simp; omega

/-! ### Skips -/

/-- A conditional skip changes `PC` only, by 2 when its condition holds. -/
theorem skipIf_eq (c : Bool) (s : State) : skipIf c s = s.setPc (if c then s.pc + 2#16 else s.pc) := by
  cases c <;> rfl

/-! ### Sprite source -/

/-- The source range is refused exactly when it runs past the end of memory; otherwise it gives `n` rows, row `r` being
the byte at `I + r`. -/
theorem spriteRows?_cases (n : Nat) (s : State) :
    (s.i.toNat + n > 4096 ∧ spriteRows? n s = none) ∨
    (s.i.toNat + n ≤ 4096 ∧ ∃ rows, spriteRows? n s = some rows ∧ rows.length = n ∧
      ∀ r < n, s.mem.read? (s.i.toNat + r) = rows[r]?) := by
  unfold spriteRows?
  by_cases h : s.i.toNat + n > 4096
  · exact .inl ⟨h, by simp [h]⟩
  · obtain ⟨rows, hr, -⟩ := Memory.readBytes?_isSome (m := s.mem) (a := s.i.toNat) (n := n) (by omega)
    obtain ⟨hl, hb⟩ := Memory.getElem?_readBytes? hr
    exact .inr ⟨by omega, rows, by simp [h, hr], hl, hb⟩

/-! ### Display cells -/

theorem Display.cell_flip (d : Display) (x cx : Fin 64) (y cy : Fin 32) :
    Display.cell (Display.flip d x y) cx cy = (Display.cell d cx cy ^^ decide (cx = x ∧ cy = y)) := by
  unfold Display.cell Display.flip
  by_cases hy : cy = y
  · subst hy
    by_cases hx : cx = x
    · subst hx; simp
    · simp [Fin.val_inj, hx, Ne.symm hx]
  · simp [Fin.val_inj, hy, Ne.symm hy]

@[simp] theorem Display.cell_clear (cx : Fin 64) (cy : Fin 32) : Display.cell Display.clear cx cy = false := by
  simp [Display.cell, Display.clear]

/-- A display is determined by its cells. -/
theorem Display.ext_cell {d e : Display} (h : ∀ cx cy, Display.cell e cx cy = Display.cell d cx cy) : e = d := by
  refine Vector.ext fun j hj => Vector.ext fun k hk => ?_
  exact h ⟨k, hk⟩ ⟨j, hj⟩

/-! ### The draw loops in closed form -/

/-- The bit that row byte `b` lays on column `cx`, for columns `x0 + c` to `x0 + c + k - 1`. -/
def columnBit (b : Byte) (x0 c k : Nat) (cx : Fin 64) : Bool :=
  decide (x0 + c ≤ cx.val ∧ cx.val < x0 + c + k) && b.getLsbD (7 - (cx.val - x0))

theorem paintColumns_stop (b : Byte) {x0 c k : Nat} (y : Fin 32) (p : Painting) (h : ¬ x0 + c < 64) :
    paintColumns b x0 y (List.range' c k) p = p := by
  cases k <;> simp [List.range'_succ, paintColumns, h]

theorem columnBit_stop (b : Byte) {x0 c k : Nat} (cx : Fin 64) (h : ¬ x0 + c < 64) :
    columnBit b x0 c k cx = false := by
  have := cx.isLt
  simp only [columnBit, Bool.and_eq_false_imp, decide_eq_true_eq]
  omega

theorem columnBit_succ (b : Byte) (x0 c k : Nat) (cx : Fin 64) :
    columnBit b x0 c (k + 1) cx =
      ((decide (cx.val = x0 + c) && b.getLsbD (7 - c)) || columnBit b x0 (c + 1) k cx) := by
  unfold columnBit
  by_cases h : cx.val = x0 + c
  · have h1 : ¬ x0 + (c + 1) ≤ cx.val := by omega
    simp [h]
  · have h1 : (x0 + c ≤ cx.val ∧ cx.val < x0 + c + (k + 1)) ↔
        (x0 + (c + 1) ≤ cx.val ∧ cx.val < x0 + (c + 1) + k) := by omega
    simp [h, h1]

/-- The column loop: each cell of row `y` becomes itself xor the row's bit, no other cell changes, and the hit flag
records whether a set cell was flipped. -/
theorem paintColumns_spec (b : Byte) (x0 : Nat) (y : Fin 32) (k c : Nat) (p : Painting) :
    (∀ cx cy, Display.cell (paintColumns b x0 y (List.range' c k) p).disp cx cy =
      (Display.cell p.disp cx cy ^^ (decide (cy = y) && columnBit b x0 c k cx))) ∧
    ((paintColumns b x0 y (List.range' c k) p).hit = true ↔
      p.hit = true ∨ ∃ cx, columnBit b x0 c k cx = true ∧ Display.cell p.disp cx y = true) := by
  induction k generalizing c p with
  | zero =>
    have hz : ∀ cx, columnBit b x0 c 0 cx = false := fun cx => by
      simp only [columnBit, Bool.and_eq_false_imp, decide_eq_true_eq]; omega
    simp [paintColumns, hz]
  | succ k ih =>
    by_cases h : x0 + c < 64
    · simp only [List.range'_succ, paintColumns, h, dite_true]
      obtain ⟨ih1, ih2⟩ := ih (c + 1) (if b.getLsbD (7 - c) then paintCell p ⟨x0 + c, h⟩ y else p)
      refine ⟨fun cx cy => ?_, ?_⟩
      · rw [ih1, columnBit_succ]
        have hcx : cx = ⟨x0 + c, h⟩ ↔ cx.val = x0 + c := Fin.ext_iff
        have hno : cx.val = x0 + c → columnBit b x0 (c + 1) k cx = false := fun h' => by
          simp only [columnBit, Bool.and_eq_false_imp, decide_eq_true_eq]; omega
        by_cases hb : b.getLsbD (7 - c) = true
        · by_cases hx : cx.val = x0 + c
          · by_cases hy : cy = y <;> simp [hb, paintCell, Display.cell_flip, hcx, hx, hy, hno hx]
          · simp [hb, paintCell, Display.cell_flip, hcx, hx]
        · simp [hb]
      · rw [ih2]
        have hno : ∀ cx : Fin 64, columnBit b x0 (c + 1) k cx = true → cx ≠ ⟨x0 + c, h⟩ := fun cx h' e => by
          simp only [columnBit, Bool.and_eq_true, decide_eq_true_eq] at h'
          rw [e] at h'; simp at h'
        have key : ∀ q : Fin 64 → Prop, (∃ cx, columnBit b x0 c (k + 1) cx = true ∧ q cx) ↔
            (b.getLsbD (7 - c) = true ∧ q ⟨x0 + c, h⟩) ∨ ∃ cx, columnBit b x0 (c + 1) k cx = true ∧ q cx := by
          intro q
          constructor
          · rintro ⟨cx, h1, h2⟩
            rw [columnBit_succ, Bool.or_eq_true, Bool.and_eq_true, decide_eq_true_eq] at h1
            rcases h1 with ⟨h3, h4⟩ | h1
            · obtain rfl : cx = ⟨x0 + c, h⟩ := Fin.ext h3
              exact .inl ⟨h4, h2⟩
            · exact .inr ⟨cx, h1, h2⟩
          · rintro (⟨h1, h2⟩ | ⟨cx, h1, h2⟩)
            · exact ⟨⟨x0 + c, h⟩, by simp [columnBit_succ, h1], h2⟩
            · exact ⟨cx, by simp [columnBit_succ, h1], h2⟩
        rw [key]
        by_cases hb : b.getLsbD (7 - c) = true
        · have hsame : (∃ cx, columnBit b x0 (c + 1) k cx = true ∧
              Display.cell (paintCell p ⟨x0 + c, h⟩ y).disp cx y = true) ↔
              ∃ cx, columnBit b x0 (c + 1) k cx = true ∧ Display.cell p.disp cx y = true := by
            refine exists_congr fun cx => and_congr_right fun h' => ?_
            simp [paintCell, Display.cell_flip, hno cx h']
          simp only [hb, if_true, true_and, hsame]
          simp [paintCell, or_assoc]
        · simp [hb]
    · rw [paintColumns_stop b y p h]
      simp [columnBit_stop b _ h]

/-- The bit that the row bytes `bs`, the first of them on row `y`, lay on the cell in column `cx` of row `cy`. -/
def rowsBit (bs : List Byte) (x0 y : Nat) (cx : Fin 64) (cy : Fin 32) : Bool :=
  decide (y ≤ cy.val) && ((bs[cy.val - y]?).elim false fun b => columnBit b x0 0 8 cx)

theorem rowsBit_cons (b : Byte) (bs : List Byte) (x0 y : Nat) (cx : Fin 64) (cy : Fin 32) :
    rowsBit (b :: bs) x0 y cx cy =
      ((decide (cy.val = y) && columnBit b x0 0 8 cx) || rowsBit bs x0 (y + 1) cx cy) := by
  unfold rowsBit
  rcases Nat.lt_trichotomy cy.val y with h | h | h
  · have h1 : ¬ y ≤ cy.val := by omega
    have h2 : ¬ y + 1 ≤ cy.val := by omega
    have h3 : ¬ cy.val = y := by omega
    simp [h1, h2, h3]
  · simp [h]
  · have h1 : y ≤ cy.val := by omega
    have h2 : y + 1 ≤ cy.val := by omega
    have h3 : ¬ cy.val = y := by omega
    have h4 : cy.val - y = (cy.val - (y + 1)) + 1 := by omega
    simp [h1, h2, h3, h4]

theorem rowsBit_stop (bs : List Byte) {y : Nat} (x0 : Nat) (cx : Fin 64) (cy : Fin 32) (h : ¬ y < 32) :
    rowsBit bs x0 y cx cy = false := by
  have := cy.isLt
  simp only [rowsBit, Bool.and_eq_false_imp, decide_eq_true_eq]
  omega

/-- The row loop: each cell becomes itself xor the sprite's bit on it, and the hit flag records whether a set cell was
flipped (44_display.md R112, R113). -/
theorem paintRows_spec (x0 : Nat) (bs : List Byte) (y : Nat) (p : Painting) :
    (∀ cx cy, Display.cell (paintRows x0 y bs p).disp cx cy =
      (Display.cell p.disp cx cy ^^ rowsBit bs x0 y cx cy)) ∧
    ((paintRows x0 y bs p).hit = true ↔
      p.hit = true ∨ ∃ cx cy, rowsBit bs x0 y cx cy = true ∧ Display.cell p.disp cx cy = true) := by
  induction bs generalizing y p with
  | nil =>
    have hz : ∀ cx cy, rowsBit [] x0 y cx cy = false := fun cx cy => by simp [rowsBit]
    simp [paintRows, hz]
  | cons b bs ih =>
    by_cases h : y < 32
    · simp only [paintRows, h, dite_true]
      have hcols := paintColumns_spec b x0 ⟨y, h⟩ 8 0 p
      rw [show List.range' 0 8 = [0, 1, 2, 3, 4, 5, 6, 7] from rfl] at hcols
      obtain ⟨c1, c2⟩ := hcols
      obtain ⟨r1, r2⟩ := ih (y + 1) (paintColumns b x0 ⟨y, h⟩ [0, 1, 2, 3, 4, 5, 6, 7] p)
      have hcy : ∀ cy : Fin 32, cy = ⟨y, h⟩ ↔ cy.val = y := fun cy => Fin.ext_iff
      have hlow : ∀ cx (cy : Fin 32), rowsBit bs x0 (y + 1) cx cy = true → ¬ cy.val = y := fun cx cy h' e => by
        simp only [rowsBit, Bool.and_eq_true, decide_eq_true_eq] at h'; omega
      refine ⟨fun cx cy => ?_, ?_⟩
      · rw [r1, c1, rowsBit_cons]
        by_cases hy : cy.val = y
        · have h0 : rowsBit bs x0 (y + 1) cx cy = false := by
            rw [← Bool.not_eq_true]; exact fun h' => hlow cx cy h' hy
          simp [hcy, hy, h0]
        · simp [hcy, hy]
      · rw [r2, c2]
        have hsame : (∃ cx cy, rowsBit bs x0 (y + 1) cx cy = true ∧
            Display.cell (paintColumns b x0 ⟨y, h⟩ [0, 1, 2, 3, 4, 5, 6, 7] p).disp cx cy = true) ↔
            ∃ cx cy, rowsBit bs x0 (y + 1) cx cy = true ∧ Display.cell p.disp cx cy = true := by
          refine exists_congr fun cx => exists_congr fun cy => and_congr_right fun h' => ?_
          simp [c1, hcy, hlow cx cy h']
        rw [hsame, or_assoc]
        refine or_congr_right ?_
        constructor
        · rintro (⟨cx, h1, h2⟩ | ⟨cx, cy, h1, h2⟩)
          · exact ⟨cx, ⟨y, h⟩, by simp [rowsBit_cons, h1], h2⟩
          · exact ⟨cx, cy, by simp [rowsBit_cons, h1], h2⟩
        · rintro ⟨cx, cy, h1, h2⟩
          rw [rowsBit_cons, Bool.or_eq_true, Bool.and_eq_true, decide_eq_true_eq] at h1
          rcases h1 with ⟨h3, h4⟩ | h1
          · obtain rfl : cy = ⟨y, h⟩ := Fin.ext h3
            exact .inl ⟨cx, h4, h2⟩
          · exact .inr ⟨cx, cy, h1, h2⟩
    · simp [paintRows, h, rowsBit_stop _ x0 _ _ h]

end Sys2Proof.Machine
end

