-- ==== Sys2Proof/Laws/Exec.lean ====
section
/-! SUPPORT. What each meaning and each step can answer, said once. -/

namespace Sys2Proof.Machine

/-! ### Meanings -/

/-- `RET` pops into `PC`, or traps on the empty stack. -/
theorem execRet_cases (s : State) :
    (s.sp ≠ 0#8 ∧ exec .ret s = .next ((s.setSp (s.sp - 1#8)).setPc (stackEntry s (s.sp - 1#8)))) ∨
    (s.sp = 0#8 ∧ exec .ret s = .next (s.setTrap .stackUnderflow 0x00EE#16)) := by
  rcases pop?_cases s with ⟨h, hp⟩ | ⟨h, hp⟩
  · exact .inr ⟨h, by simp [exec, execRet, hp, raiseTrap, encode]⟩
  · exact .inl ⟨h, by simp [exec, execRet, hp]⟩

/-- `CALL` pushes `PC` and jumps, or traps on the full stack. -/
theorem execCall_cases (nnn : Addr12) (s : State) :
    (∃ h : s.sp.toNat < 16, exec (.call nnn) s =
      .next (((s.setStack ⟨s.sp.toNat, h⟩ s.pc).setSp (s.sp + 1#8)).setPc (addressOperand nnn))) ∨
    (16 ≤ s.sp.toNat ∧ exec (.call nnn) s = .next (s.setTrap .stackOverflow (encode (.call nnn)))) := by
  rcases push?_cases s.pc s with ⟨h, hp⟩ | ⟨h, hp⟩
  · exact .inl ⟨h, by simp [exec, execCall, hp]⟩
  · exact .inr ⟨h, by simp [exec, execCall, hp, raiseTrap]⟩

/-- `DRW` draws the rows it reads, or traps on a source range past the end of memory. -/
theorem execDrw_cases (x y : Reg) (n : Nibble) (s : State) :
    (s.i.toNat + n.toNat ≤ 4096 ∧ ∃ rows : List Byte, rows.length = n.toNat ∧
      (∀ r < n.toNat, s.mem.read? (s.i.toNat + r) = rows[r]?) ∧
      exec (.drw x y n) s = .next (drawSprite x y rows s)) ∨
    (s.i.toNat + n.toNat > 4096 ∧
      exec (.drw x y n) s = .next (s.setTrap .drawSourceOutOfRange (encode (.drw x y n)))) := by
  rcases spriteRows?_cases n.toNat s with ⟨h, hr⟩ | ⟨h, rows, hr, hl, hb⟩
  · exact .inr ⟨h, by simp [exec, execDrw, hr, raiseTrap]⟩
  · exact .inl ⟨h, rows, hl, hb, by simp [exec, execDrw, hr]⟩

/-- The rows of a draw as the bits of the memory it reads. -/
theorem rowsBit_eq_spriteBit {s : State} {n : Nat} {rows : List Byte} (hl : rows.length = n)
    (hb : ∀ r < n, s.mem.read? (s.i.toNat + r) = rows[r]?) (x0 y0 : Nat) (cx : Fin 64) (cy : Fin 32) :
    rowsBit rows x0 y0 cx cy = spriteBit s n x0 y0 cx cy := by
  unfold rowsBit spriteBit columnBit
  by_cases hy : y0 ≤ cy.val
  · by_cases hn : cy.val < y0 + n
    · have hr := hb (cy.val - y0) (by omega)
      rw [hr]
      by_cases hx : x0 ≤ cx.val ∧ cx.val < x0 + 8
      · simp only [hy, hx, hn, decide_true, Bool.true_and, and_self, if_true, Nat.add_zero]
        cases rows[cy.val - y0]? <;> rfl
      · have : ¬ (x0 ≤ cx.val ∧ cx.val < x0 + 8 ∧ y0 ≤ cy.val ∧ cy.val < y0 + n) := fun h => hx ⟨h.1, h.2.1⟩
        simp only [hx, this, Nat.add_zero, decide_false, Bool.false_and, if_false]
        cases rows[cy.val - y0]? <;> simp
    · have h1 : rows[cy.val - y0]? = none := List.getElem?_eq_none (by omega)
      simp [h1, hn]
  · simp [hy]

/-- A draw in closed form (44_display.md R112, R113): the state after `drawSprite`, cell by cell. -/
theorem drawSprite_spec {x y : Reg} {n : Nat} {rows : List Byte} {s : State} (hl : rows.length = n)
    (hb : ∀ r < n, s.mem.read? (s.i.toNat + r) = rows[r]?) :
    ∃ (d : Display) (hit : Bool), drawSprite x y rows s = ((s.setV regVF (collisionFlag hit)).setDisp d).setDirty true ∧
      (∀ cx cy, Display.cell d cx cy =
        (Display.cell s.disp cx cy ^^ spriteBit s n (anchorColumn x s) (anchorRow y s) cx cy)) ∧
      (hit = true ↔ ∃ cx cy, spriteBit s n (anchorColumn x s) (anchorRow y s) cx cy = true ∧
        Display.cell s.disp cx cy = true) := by
  obtain ⟨h1, h2⟩ := paintRows_spec (anchorColumn x s) rows (anchorRow y s) { disp := s.disp, hit := false }
  simp only [rowsBit_eq_spriteBit hl hb] at h1 h2
  exact ⟨_, _, rfl, h1, by simpa using h2⟩

/-- Every meaning answers a next state: no instruction faults or is refused. -/
theorem exec_answers_next (i : Instr) (s : State) : ∃ t, exec i s = .next t := by
  cases i with
  | ret => exact (execRet_cases s).elim (fun h => ⟨_, h.2⟩) fun h => ⟨_, h.2⟩
  | call nnn => exact (execCall_cases nnn s).elim (fun ⟨_, h⟩ => ⟨_, h⟩) fun h => ⟨_, h.2⟩
  | drw x y n => exact (execDrw_cases x y n s).elim (fun ⟨_, _, _, _, h⟩ => ⟨_, h⟩) fun h => ⟨_, h.2⟩
  | _ => exact ⟨_, rfl⟩

/-! ### The step -/

/-- A rejected opcode is rejected with itself as the value. -/
theorem decode_unrecognized_self {w v : Word} (h : decode w = .unrecognized v) : v = w := by
  rcases decode_cases w with h' | h' | h' | h' | h' | h' | h' | h' | h' | h' | h' | h' | h' <;>
    simp only [h, reduceCtorEq, and_false, Decoded.unrecognized.injEq] at h'
  exact h'.2

/-- Everything a step can do (40_step_cycle.md R76). -/
theorem step_cases (s : State) :
    (s.trapCause ≠ .none ∧ step s = .fault (.trapped s.trapCause s.trapInfo)) ∨
    (s.trapCause = .none ∧ s.pc.toNat > 0xFFE ∧
      step s = .next ((beginStep s).setTrap .fetchOutOfRange s.pc)) ∨
    (s.trapCause = .none ∧ s.pc.toNat ≤ 0xFFE ∧ ∃ w, fetchOpcode? s = some w ∧ decode w = .unrecognized w ∧
      step s = .next ((advancePc (beginStep s)).setTrap .unrecognizedOpcode w)) ∨
    (s.trapCause = .none ∧ s.pc.toNat ≤ 0xFFE ∧ ∃ w i, fetchOpcode? s = some w ∧ decode w = .instruction i ∧
      step s = exec i (advancePc (beginStep s))) := by
  by_cases hc : s.trapCause = .none
  · have hf : fetchOpcode? (beginStep s) = fetchOpcode? s := rfl
    have hs : step s = runStep s := by simp [step, hc]
    cases hw : fetchOpcode? s with
    | none =>
      have hp := (Memory.fetch?_eq_none_iff _ _).1 hw
      exact .inr (.inl ⟨hc, hp, by rw [hs, runStep, hf, hw]; rfl⟩)
    | some w =>
      have hp : s.pc.toNat ≤ 0xFFE := by
        by_contra hp
        rw [fetchOpcode?, (Memory.fetch?_eq_none_iff _ _).2 (by omega)] at hw
        cases hw
      cases hd : decode w with
      | instruction i =>
        exact .inr (.inr (.inr ⟨hc, hp, w, i, rfl, hd, by rw [hs, runStep, hf, hw]; simp only [runOpcode, hd]⟩))
      | unrecognized v =>
        obtain rfl := decode_unrecognized_self hd
        exact .inr (.inr (.inl ⟨hc, hp, v, rfl, hd, by rw [hs, runStep, hf, hw]; simp only [runOpcode, hd, raiseTrap]⟩))
  · exact .inl ⟨hc, by simp [step, hc]⟩

end Sys2Proof.Machine
end

