-- ==== Sys2Proof/Laws/PerInstr.lean ====
section
/-! SUPPORT. Statements per instruction: the operands fit their fields, and the encoding meets the mask and match of the
instruction's row in the opcode table (30_encoding.md R51, R54). -/

namespace Sys2Proof.Laws

/-! ### Every instruction is well formed -/

def OperandsFit.Statement (i : Instr) : Prop := i.wellFormed = true

theorem fits_x (x : Reg) : Operand.fits ⟨.x, x.val⟩ = true := by simp [Operand.fits, Field.width]
theorem fits_y (y : Reg) : Operand.fits ⟨.y, y.val⟩ = true := by simp [Operand.fits, Field.width]
theorem fits_n (n : Nibble) : Operand.fits ⟨.n, n.toNat⟩ = true := by
  exact decide_eq_true n.isLt
theorem fits_nn (nn : Byte) : Operand.fits ⟨.nn, nn.toNat⟩ = true := by
  exact decide_eq_true nn.isLt
theorem fits_nnn (nnn : Addr12) : Operand.fits ⟨.nnn, nnn.toNat⟩ = true := by
  exact decide_eq_true nnn.isLt

theorem OperandsFit.cls : OperandsFit.Statement .cls := rfl
theorem OperandsFit.ret : OperandsFit.Statement .ret := rfl
theorem OperandsFit.jp (nnn : Addr12) : OperandsFit.Statement (.jp nnn) := by
  simp [OperandsFit.Statement, Instr.wellFormed, Instr.operands, fits_nnn]
theorem OperandsFit.call (nnn : Addr12) : OperandsFit.Statement (.call nnn) := by
  simp [OperandsFit.Statement, Instr.wellFormed, Instr.operands, fits_nnn]
theorem OperandsFit.seVxNn (x : Reg) (nn : Byte) : OperandsFit.Statement (.seVxNn x nn) := by
  simp [OperandsFit.Statement, Instr.wellFormed, Instr.operands, fits_x, fits_nn]
theorem OperandsFit.sneVxNn (x : Reg) (nn : Byte) : OperandsFit.Statement (.sneVxNn x nn) := by
  simp [OperandsFit.Statement, Instr.wellFormed, Instr.operands, fits_x, fits_nn]
theorem OperandsFit.seVxVy (x y : Reg) : OperandsFit.Statement (.seVxVy x y) := by
  simp [OperandsFit.Statement, Instr.wellFormed, Instr.operands, fits_x, fits_y]
theorem OperandsFit.ldVxNn (x : Reg) (nn : Byte) : OperandsFit.Statement (.ldVxNn x nn) := by
  simp [OperandsFit.Statement, Instr.wellFormed, Instr.operands, fits_x, fits_nn]
theorem OperandsFit.addVxNn (x : Reg) (nn : Byte) : OperandsFit.Statement (.addVxNn x nn) := by
  simp [OperandsFit.Statement, Instr.wellFormed, Instr.operands, fits_x, fits_nn]
theorem OperandsFit.sneVxVy (x y : Reg) : OperandsFit.Statement (.sneVxVy x y) := by
  simp [OperandsFit.Statement, Instr.wellFormed, Instr.operands, fits_x, fits_y]
theorem OperandsFit.ldINnn (nnn : Addr12) : OperandsFit.Statement (.ldINnn nnn) := by
  simp [OperandsFit.Statement, Instr.wellFormed, Instr.operands, fits_nnn]
theorem OperandsFit.drw (x y : Reg) (n : Nibble) : OperandsFit.Statement (.drw x y n) := by
  simp [OperandsFit.Statement, Instr.wellFormed, Instr.operands, fits_x, fits_y, fits_n]

/-! ### Every encoding meets its row's mask and match -/

def EncodingMatchesRow.Statement (i : Instr) : Prop := encode i &&& i.rowMask = i.rowMatch

/-- The high nibble of an opcode under the mask 0xF000. -/
theorem and_F000 (w : Word) : w &&& 0xF000#16 = BitVec.ofNat 16 ((fieldOp w).toNat * 4096) := by
  have h : w &&& 0xF000#16 = (w >>> 12) <<< 12 := by
    ext j hj
    interval_cases j <;> simp
  apply BitVec.eq_of_toNat_eq
  rw [h, fieldOp_toNat]
  simp [Nat.shiftLeft_eq, Nat.shiftRight_eq_div_pow]

/-- The high and the low nibble of an opcode under the mask 0xF00F. -/
theorem and_F00F (w : Word) (h : fieldN w = 0#4) : w &&& 0xF00F#16 = w &&& 0xF000#16 := by
  have hb : ∀ j (hj : j < 4), w.getLsbD j = false := fun j hj => by
    have := congrArg (fun v => v.getLsbD j) h
    simpa [fieldN, hj] using this
  ext j hj
  simp only [BitVec.getElem_and]
  interval_cases j <;> simp [← BitVec.getLsbD_eq_getElem, hb]

theorem EncodingMatchesRow.cls : EncodingMatchesRow.Statement .cls := rfl
theorem EncodingMatchesRow.ret : EncodingMatchesRow.Statement .ret := rfl
theorem EncodingMatchesRow.jp (nnn : Addr12) : EncodingMatchesRow.Statement (.jp nnn) := by
  simp [EncodingMatchesRow.Statement, encode, Instr.rowMask, Instr.rowMatch, and_F000]
theorem EncodingMatchesRow.call (nnn : Addr12) : EncodingMatchesRow.Statement (.call nnn) := by
  simp [EncodingMatchesRow.Statement, encode, Instr.rowMask, Instr.rowMatch, and_F000]
theorem EncodingMatchesRow.seVxNn (x : Reg) (nn : Byte) : EncodingMatchesRow.Statement (.seVxNn x nn) := by
  simp [EncodingMatchesRow.Statement, encode, Instr.rowMask, Instr.rowMatch, and_F000]
theorem EncodingMatchesRow.sneVxNn (x : Reg) (nn : Byte) : EncodingMatchesRow.Statement (.sneVxNn x nn) := by
  simp [EncodingMatchesRow.Statement, encode, Instr.rowMask, Instr.rowMatch, and_F000]
theorem EncodingMatchesRow.seVxVy (x y : Reg) : EncodingMatchesRow.Statement (.seVxVy x y) := by
  simp [EncodingMatchesRow.Statement, encode, Instr.rowMask, Instr.rowMatch, and_F00F, and_F000]
theorem EncodingMatchesRow.ldVxNn (x : Reg) (nn : Byte) : EncodingMatchesRow.Statement (.ldVxNn x nn) := by
  simp [EncodingMatchesRow.Statement, encode, Instr.rowMask, Instr.rowMatch, and_F000]
theorem EncodingMatchesRow.addVxNn (x : Reg) (nn : Byte) : EncodingMatchesRow.Statement (.addVxNn x nn) := by
  simp [EncodingMatchesRow.Statement, encode, Instr.rowMask, Instr.rowMatch, and_F000]
theorem EncodingMatchesRow.sneVxVy (x y : Reg) : EncodingMatchesRow.Statement (.sneVxVy x y) := by
  simp [EncodingMatchesRow.Statement, encode, Instr.rowMask, Instr.rowMatch, and_F00F, and_F000]
theorem EncodingMatchesRow.ldINnn (nnn : Addr12) : EncodingMatchesRow.Statement (.ldINnn nnn) := by
  simp [EncodingMatchesRow.Statement, encode, Instr.rowMask, Instr.rowMatch, and_F000]
theorem EncodingMatchesRow.drw (x y : Reg) (n : Nibble) : EncodingMatchesRow.Statement (.drw x y n) := by
  simp [EncodingMatchesRow.Statement, encode, Instr.rowMask, Instr.rowMatch, and_F000]

end Sys2Proof.Laws
end

