-- ==== Sys2Proof/Tests/Slice0.lean ====
section
/-! SUPPORT. Small tests: one step each, their expected values from the vectors and examples of spec/ (95_test_vectors.md
ids in the comments), and a witness for the hypotheses of each statement that has some. -/

namespace Sys2Proof.Machine.Tests

open Sys2Proof Sys2Proof.Machine

/-! ## Helpers -/

/-- The reset state with the opcode `w` at `PC = p`. -/
def at_ (p w : Word) : State := { State.reset with pc := p }.withFetchWord 16 w.toNat

/-- The next state of an outcome; the reset state where there is none. -/
def after : Result → State
  | .next t => t
  | .fault _ => State.reset
  | .refused _ => State.reset

def isNext : Result → Bool
  | .next _ => true
  | .fault _ => false
  | .refused _ => false

theorem next_after (r : Result) (h : isNext r = true) : r = .next (after r) := by
  cases r <;> first | rfl | cases h

/-- The set cells as (column, row), row by row. -/
def setCells (d : Display) : List (Nat × Nat) :=
  (List.finRange 32).flatMap fun y => (List.finRange 64).filterMap fun x =>
    if Display.cell d x y then some (x.val, y.val) else none

/-! ## Well-formedness: each check refuses an ill-formed operand -/

theorem test_register_16_refused : Operand.fits ⟨.x, 16⟩ = false ∧ Operand.fits ⟨.y, 16⟩ = false := by decide
theorem test_nibble_16_refused : Operand.fits ⟨.n, 16⟩ = false := by decide
theorem test_byte_256_refused : Operand.fits ⟨.nn, 256⟩ = false := by decide
theorem test_address_4096_refused : Operand.fits ⟨.nnn, 4096⟩ = false := by decide
theorem test_largest_operands_fit : (Instr.drw 15 15 0xF#4).wellFormed = true ∧ (Instr.jp 0xFFF#12).wellFormed = true ∧
    (Instr.ldVxNn 15 0xFF#8).wellFormed = true := by decide

/-! ## Decoding: words written out from 30_encoding.md R52, R54 (95_test_vectors.md section 2.1) -/

theorem test_decode_z : decode 0b0000000011100000#16 = .instruction .cls ∧
    decode 0b0000000011101110#16 = .instruction .ret := by decide
theorem test_decode_a : decode 0b0001111111111111#16 = .instruction (.jp 0xFFF#12) ∧
    decode 0b0010000000000000#16 = .instruction (.call 0#12) ∧
    decode 0b1010000001010000#16 = .instruction (.ldINnn 0x050#12) := by decide
theorem test_decode_xb : decode 0b0011101011111111#16 = .instruction (.seVxNn 10 0xFF#8) ∧
    decode 0b0100111100000000#16 = .instruction (.sneVxNn 15 0#8) ∧
    decode 0b0110111100101010#16 = .instruction (.ldVxNn 15 0x2A#8) ∧
    decode 0b0111000000000000#16 = .instruction (.addVxNn 0 0#8) := by decide
theorem test_decode_xy : decode 0b0101101010110000#16 = .instruction (.seVxVy 10 11) ∧
    decode 0b1001000100100000#16 = .instruction (.sneVxVy 1 2) := by decide
theorem test_decode_xyn : decode 0b1101000100100011#16 = .instruction (.drw 1 2 3#4) ∧
    decode 0xDFFF#16 = .instruction (.drw 15 15 0xF#4) := by decide
theorem test_decode_unrecognized :
    [0x0000#16, 0x00E1#16, 0x01E0#16, 0x0FFF#16, 0x5AB1#16, 0x5ABF#16, 0x8014#16, 0x9128#16, 0xB200#16, 0xC0FF#16,
      0xE09E#16, 0xF00A#16, 0xFFFF#16].all (fun w => decode w == .unrecognized w) = true := by decide
theorem test_encode_rows : encode (.seVxVy 10 11) = 0x5AB0#16 ∧ encode (.ldVxNn 15 0x2A#8) = 0x6F2A#16 ∧
    encode (.drw 1 2 3#4) = 0xD123#16 ∧ encode (.call 0xABC#12) = 0x2ABC#16 := by decide
theorem test_decode_bytes_big_endian : decodeBytes [0x60#8, 0x2A#8, 0xFF#8] =
    some (.instruction (.ldVxNn 0 0x2A#8), [0xFF#8]) ∧ decodeBytes [0x60#8] = none := by decide
theorem test_decode_table_word : decodeTableWord 16 0x602A = some (.ldVxNn 0 0x2A#8) ∧
    decodeTableWord 16 0x8014 = none := by decide
theorem test_rows_pairwise_disjoint : [Instr.cls, .ret, .jp 0, .call 0, .seVxNn 0 0, .sneVxNn 0 0, .seVxVy 0 0,
    .ldVxNn 0 0, .addVxNn 0 0, .sneVxVy 0 0, .ldINnn 0, .drw 0 0 0].Pairwise
      (fun i j => i.rowMatch &&& (i.rowMask &&& j.rowMask) ≠ j.rowMatch &&& (i.rowMask &&& j.rowMask)) := by decide

/-! ## Reset, font, load (vectors S10, L1 to L4; R24) -/

theorem test_font_first_and_last_glyph :
    State.reset.mem.readBytes? 0x050 5 = some [0xF0, 0x90, 0x90, 0x90, 0xF0] ∧
    State.reset.mem.readBytes? 0x09B 5 = some [0xF0, 0x80, 0xF0, 0x80, 0x80] ∧
    State.reset.mem.read? 0x04F = some 0#8 ∧ State.reset.mem.read? 0x0A0 = some 0#8 ∧
    State.reset.mem.read? 0xFFF = some 0#8 ∧ State.reset.mem.read? 0x1000 = none ∧ font.length = 80 := by decide
theorem test_load_overlays : -- L3
    (hostLoad [0x09#8] (hostLoad [1#8, 2#8, 3#8, 4#8] State.reset)).mem.readBytes? 0x200 5 =
      some [0x09, 0x02, 0x03, 0x04, 0x00] := by decide
theorem test_load_empty_sets_pc : (hostLoad [] State.reset).pc = 0x200#16 ∧ (hostLoad [] State.reset).mem = [] := by
  decide
theorem test_trap_codes : [TrapCause.none, .unrecognizedOpcode, .stackOverflow, .stackUnderflow, .fetchOutOfRange,
    .drawSourceOutOfRange].map TrapCause.code = [0, 1, 2, 3, 4, 5] := by decide

/-! ## Steps: at most two for an instruction -/

-- F9: straight after RESET
theorem test_step_after_reset : stepReturn State.reset = some (.err .unrecognizedOpcode 0#16) ∧
    (after (step State.reset)).pc = 2#16 := by decide
-- T1: a latched trap is replayed
theorem test_step_trapped : stepReturn (after (step (at_ 0x200 0x8014))) = some (.err .unrecognizedOpcode 0x8014#16) ∧
    isNext (step (after (step (at_ 0x200 0x8014)))) = false := by decide
-- F6
theorem test_step_fetch_out_of_range : stepReturn { State.reset with pc := 0xFFF } =
    some (.err .fetchOutOfRange 0x0FFF#16) := by decide
-- D1
theorem test_cls : let t := after (step { at_ 0x200 0x00E0 with disp := Display.flip State.reset.disp 63 31, v := State.reset.v.set 15 9 })
    setCells t.disp = [] ∧ t.dirty = true ∧ t.readV 15 = 9#8 ∧ t.pc = 0x202#16 := by decide
-- C7
theorem test_ret : let t := after (step { at_ 0x400 0x00EE with sp := 2, stack := (State.reset.stack.set 0 0x202).set 1 0x20C })
    t.pc = 0x20C#16 ∧ t.sp = 1#8 ∧ t.stack[1] = 0x20C#16 := by decide
-- C8
theorem test_ret_underflow : let t := after (step (at_ 0x400 0x00EE))
    t.trapCause = .stackUnderflow ∧ t.trapInfo = 0x00EE#16 ∧ t.pc = 0x402#16 ∧ t.sp = 0#8 := by decide
-- F3: an odd PC
theorem test_jp_odd : (after (step (at_ 0x201 0x1200))).pc = 0x200#16 := by decide
-- C3
theorem test_jp_top : (after (step (at_ 0x200 0x1FFF))).pc = 0xFFF#16 := by decide
-- C5
theorem test_call : let t := after (step { at_ 0x300 0x2ABC with sp := 15, stack := State.reset.stack.set 15 0xBEEF })
    t.stack[15] = 0x302#16 ∧ t.sp = 16#8 ∧ t.pc = 0xABC#16 := by decide
-- C6
theorem test_call_overflow : let t := after (step { at_ 0x300 0x2ABC with sp := 16 })
    t.trapCause = .stackOverflow ∧ t.trapInfo = 0x2ABC#16 ∧ t.pc = 0x302#16 ∧ t.sp = 16#8 := by decide
-- K1, K2
theorem test_se_byte : (after (step { at_ 0x300 0x3305 with v := State.reset.v.set 3 5 })).pc = 0x304#16 ∧
    (after (step { at_ 0x300 0x3305 with v := State.reset.v.set 3 4 })).pc = 0x302#16 := by decide
-- K3, K4
theorem test_sne_byte : (after (step { at_ 0x300 0x4305 with v := State.reset.v.set 3 5 })).pc = 0x302#16 ∧
    (after (step { at_ 0x300 0x4305 with v := State.reset.v.set 3 4 })).pc = 0x304#16 := by decide
-- K6, K12
theorem test_se_register : (after (step { at_ 0x300 0x5120 with v := (State.reset.v.set 1 7).set 2 7 })).pc = 0x304#16 ∧
    (after (step { at_ 0x300 0x5120 with v := State.reset.v.set 1 0xFF })).pc = 0x302#16 := by decide
-- K8, K9
theorem test_sne_register : (after (step { at_ 0x300 0x9120 with v := (State.reset.v.set 1 7).set 2 7 })).pc = 0x302#16 ∧
    (after (step { at_ 0x300 0x9120 with v := (State.reset.v.set 1 7).set 2 8 })).pc = 0x304#16 := by decide
-- A2
theorem test_ld_byte : (after (step (at_ 0x200 0x6F2A))).readV 15 = 0x2A#8 := by decide
-- F4: the last address
theorem test_ld_byte_at_top : (after (step (at_ 0xFFE 0x6A01))).readV 10 = 1#8 ∧
    (after (step (at_ 0xFFE 0x6A01))).pc = 0x1000#16 := by decide
-- A3
theorem test_add_wraps : let t := after (step { at_ 0x200 0x7201 with v := (State.reset.v.set 2 0xFF).set 15 0x55 })
    t.readV 2 = 0#8 ∧ t.readV 15 = 0x55#8 := by decide
-- A9
theorem test_add_vf : (after (step { at_ 0x200 0x7F03 with v := State.reset.v.set 15 0xFE })).readV 15 = 1#8 := by decide
-- A10
theorem test_ld_i : (after (step { at_ 0x200 0xA123 with i := 0xFFFF })).i = 0x0123#16 := by decide
-- D7: anchor wraps, body clips at both edges
theorem test_drw_clips : let t := after (step { at_ 0x200 0xD015 with i := 0x078, v := (State.reset.v.set 0 0x7C).set 1 0x3E })
    setCells t.disp = [(60, 30), (61, 30), (62, 30), (63, 30), (60, 31), (63, 31)] ∧ t.readV 15 = 0#8 := by decide
-- D9: the anchor is the old VF; the second draw of D3, D4 in one
theorem test_drw_vf_anchor : let t := after (step { at_ 0x200 0xDF15 with i := 0x050, v := (State.reset.v.set 15 5).set 1 2,
                                                                            disp := Display.flip State.reset.disp 5 2 })
    setCells t.disp = [(6, 2), (7, 2), (8, 2), (5, 3), (8, 3), (5, 4), (8, 4), (5, 5), (8, 5), (5, 6), (6, 6), (7, 6), (8, 6)] ∧
    t.readV 15 = 1#8 ∧ t.dirty = true := by decide
-- D12, D13: the range test takes the whole range
theorem test_drw_range : let t := after (step { at_ 0x200 0xD012 with i := 0xFFF, v := (State.reset.v.set 1 31).set 15 7 })
    t.trapCause = .drawSourceOutOfRange ∧ t.trapInfo = 0xD012#16 ∧ t.readV 15 = 7#8 ∧ t.dirty = false ∧
    t.pc = 0x202#16 := by decide

/-! ## Witnesses: for each statement with hypotheses, a state and operands that meet them all -/

theorem test_witness_encode_of_decode : decode 0x6F2A#16 = .instruction (.ldVxNn 15 0x2A#8) := by decide
theorem test_witness_mask_and_match : decode 0x5AB0#16 = .instruction (.seVxVy 10 11) ∧
    0x5AB0#16 &&& (Instr.seVxVy 0 0).rowMask = (Instr.seVxVy 0 0).rowMatch := by decide
theorem test_witness_fetch_big_endian : (at_ 0xFFE 0x6A01).pc.toNat ≤ 0xFFE ∧
    fetchOpcode? (at_ 0xFFE 0x6A01) = some 0x6A01#16 := by decide
theorem test_witness_equal_memories : Memory.wf [(0x200, 1#8), (0x201, 2#8)] ∧
    ∀ a : Nat, Memory.read? [(0x200, 1#8), (0x201, 2#8)] a = Memory.read? [(0x200, 1#8), (0x201, 2#8)] a :=
  ⟨by decide, fun _ => rfl⟩
theorem test_witness_reset_and_load : (at_ 0x200 0x8014).mem.wf ∧ 0 < min [0x60#8, 0x2A#8].length 3584 ∧
    1 < min [0x60#8, 0x2A#8].length 3584 ∧ ¬ (0x200 ≤ 0x1FF ∧ 0x1FF < 0x200 + min [0x60#8, 0x2A#8].length 3584) ∧
    ¬ (0x200 ≤ 0x202 ∧ 0x202 < 0x200 + min [0x60#8, 0x2A#8].length 3584) := by decide
theorem test_witness_last_cell : (31 : Fin 32).val * 64 + (63 : Fin 64).val < 2048 ∧ (HostAction.load [] ≠ .reset) := by
  decide
theorem test_witness_trapped : Trapped (after (step (at_ 0x200 0x8014))) := by unfold Trapped; decide
theorem test_witness_step_runs : (at_ 0x201 0x1200).trapCause = .none ∧
    (at_ 0x201 0x1200).mem.read? (at_ 0x201 0x1200).pc.toNat = some 0x12#8 ∧
    (at_ 0x201 0x1200).mem.read? ((at_ 0x201 0x1200).pc.toNat + 1) = some 0x00#8 ∧
    decode (0x12#8 ++ 0x00#8) = .instruction (.jp 0x200#12) ∧ (Instr.jp 0x200#12).wellFormed = true := by decide
theorem test_witness_unrecognized : (at_ 0x200 0x8014).trapCause = .none ∧
    (at_ 0x200 0x8014).mem.read? 0x200 = some 0x80#8 ∧ (at_ 0x200 0x8014).mem.read? 0x201 = some 0x14#8 ∧
    decode (0x80#8 ++ 0x14#8) = .unrecognized (0x80#8 ++ 0x14#8) := by decide
theorem test_witness_fetch_outside : ({ State.reset with pc := 0xFFF } : State).trapCause = .none ∧
    ({ State.reset with pc := 0xFFF } : State).pc.toNat > 0xFFE := by decide
theorem test_witness_trapping_step : step { State.reset with pc := 0xFFF } =
      .next (after (step { State.reset with pc := 0xFFF })) ∧
    (after (step { State.reset with pc := 0xFFF })).trapCause = .fetchOutOfRange ∧
    step (at_ 0x400 0x00EE) = .next (after (step (at_ 0x400 0x00EE))) ∧
    (after (step (at_ 0x400 0x00EE))).trapCause = .stackUnderflow :=
  ⟨next_after _ (by decide), by decide, next_after _ (by decide), by decide⟩
/-- The five traps, each at the boundary of its case. -/
theorem test_witness_each_trap :
    (after (step { State.reset with pc := 0xFFF })).trapCause = .fetchOutOfRange ∧
    (after (step (at_ 0xFFE 0x8014))).trapCause = .unrecognizedOpcode ∧
    (after (step (at_ 0x400 0x00EE))).trapCause = .stackUnderflow ∧
    (after (step { at_ 0x200 0x2208 with sp := 16 })).trapCause = .stackOverflow ∧
    (after (step { at_ 0x200 0xD015 with i := 0xFFC })).trapCause = .drawSourceOutOfRange ∧
    (after (step { at_ 0x200 0xD014 with i := 0xFFC })).trapCause = .none := by decide
/-- A stack entry written by a call, a `PC` moved by a taken skip, a latch written, and steps without an instruction on
both sides of the last fetch address. -/
theorem test_witness_writes_named :
    (after (step (at_ 0x200 0x2208))).stack[0] ≠ (at_ 0x200 0x2208).stack[0] ∧
    (after (step (at_ 0x200 0x3000))).pc ≠ (at_ 0x200 0x3000).pc + 2#16 ∧
    (after (step (at_ 0x400 0x00EE))).trapInfo ≠ (at_ 0x400 0x00EE).trapInfo ∧
    fetchOpcode? { State.reset with pc := 0xFFF } = none ∧
    ({ State.reset with pc := 0xFFF } : State).pc.toNat > 0xFFE ∧
    fetchOpcode? (at_ 0xFFE 0x8014) = some 0x8014#16 ∧ (at_ 0xFFE 0x8014).pc.toNat ≤ 0xFFE ∧
    decode 0x8014#16 = .unrecognized 0x8014#16 := by decide
/-- A changed register, `I`, stack, `PC`. -/
theorem test_witness_writes_registers :
    step (at_ 0x200 0x602A) = .next (after (step (at_ 0x200 0x602A))) ∧
    (after (step (at_ 0x200 0x602A))).readV 0 ≠ (at_ 0x200 0x602A).readV 0 ∧
    step (at_ 0x200 0xA050) = .next (after (step (at_ 0x200 0xA050))) ∧
    (after (step (at_ 0x200 0xA050))).i ≠ (at_ 0x200 0xA050).i ∧
    step (at_ 0x200 0x2208) = .next (after (step (at_ 0x200 0x2208))) ∧
    (after (step (at_ 0x200 0x2208))).sp ≠ (at_ 0x200 0x2208).sp ∧
    (after (step (at_ 0x200 0x2208))).pc ≠ (at_ 0x200 0x2208).pc + 2#16 :=
  ⟨next_after _ (by decide), by decide, next_after _ (by decide), by decide, next_after _ (by decide), by decide,
    by decide⟩
/-- A changed display and a set dirty flag (then a step that leaves it false: the witness above). -/
theorem test_witness_writes_display :
    step { at_ 0x200 0xD011 with i := 0x050 } = .next (after (step { at_ 0x200 0xD011 with i := 0x050 })) ∧
    Display.cell (after (step { at_ 0x200 0xD011 with i := 0x050 })).disp 0 0 = true ∧
    (after (step { at_ 0x200 0xD011 with i := 0x050 })).dirty = true :=
  ⟨next_after _ (by decide), by decide, by decide⟩
theorem test_witness_dirty_stays_clear : step (at_ 0x200 0x602A) = .next (after (step (at_ 0x200 0x602A))) ∧
    (after (step (at_ 0x200 0x602A))).dirty = false := ⟨next_after _ (by decide), by decide⟩
/-- The dead entry just above the top, which the call overwrites. -/
theorem test_witness_dead_entry : (at_ 0x200 0x2208).sp.toNat ≤ (0 : Fin 16).val ∧
    step (at_ 0x200 0x2208) = .next (after (step (at_ 0x200 0x2208))) := ⟨by decide, next_after _ (by decide)⟩
theorem test_witness_finished : Finished (at_ 0x208 0x1208) := by unfold Finished Trapped; decide
theorem test_witness_invariant_step : Invariant State.reset ∧ step State.reset = .next (after (step State.reset)) ∧
    Reachable State.reset :=
  ⟨⟨by decide, by decide, by decide, fun j h => by simp [State.reset] at h, reset_mem_wf⟩, next_after _ (by decide),
    .reset⟩
theorem test_witness_stack_bounds : ({ State.reset with sp := 15 } : State).sp.toNat < 16 ∧
    16 ≤ ({ State.reset with sp := 16 } : State).sp.toNat ∧ ({ State.reset with sp := 16 } : State).sp ≠ 0#8 ∧
    (15 : Fin 16).val + 1 = ({ State.reset with sp := 16 } : State).sp.toNat ∧ State.reset.sp = 0#8 ∧
    (List.replicate 16 0x202#16).length = 16 := by decide
theorem test_witness_round_trip :
    let s := hostLoad [0x22#8, 0x04#8, 0x00#8, 0x00#8, 0x00#8, 0xEE#8] State.reset -- S5
    s.sp.toNat < 16 ∧ ¬ Trapped s ∧ fetchOpcode? s = some (encode (.call 0x204#12)) ∧ step s = .next (after (step s)) ∧
      fetchOpcode? (after (step s)) = some 0x00EE#16 :=
  ⟨by decide, by unfold Trapped; decide, by decide, next_after _ (by decide), by decide⟩
theorem test_witness_skip_operands : (State.reset.readV 15).toNat = (0#8).toNat ∧
    (State.reset.readV 15).toNat ≠ (1#8).toNat ∧ (State.reset.readV 1).toNat = (State.reset.readV 2).toNat ∧
    ({ State.reset with v := State.reset.v.set 1 0xFF } : State).readV 1 ≠ State.reset.readV 2 ∧ (3 : Reg) ≠ regVF := by
  decide
/-- The source range that just fits (D11), the first that does not, and a draw repeated at one position (D3, D4). -/
theorem test_witness_draw : ({ State.reset with i := 0xFFC } : State).i.toNat + (4#4).toNat ≤ 4096 ∧
    ({ State.reset with i := 0xFFC } : State).i.toNat + (5#4).toNat > 4096 ∧ (0 : Reg) ≠ regVF ∧
    (let s := { State.reset with i := 0x050 }
     exec (.drw 0 1 5#4) s = .next (after (exec (.drw 0 1 5#4) s)) ∧
     exec (.drw 0 1 5#4) (after (exec (.drw 0 1 5#4) s)) =
       .next (after (exec (.drw 0 1 5#4) (after (exec (.drw 0 1 5#4) s)))) ∧
     Display.cell s.disp 0 0 = false ∧ Display.cell (after (exec (.drw 0 1 5#4) s)).disp 0 0 = true) :=
  ⟨by decide, by decide, by decide, next_after _ (by decide), next_after _ (by decide), by decide, by decide⟩
/-- VF as the anchor's column register, where the flag the first draw leaves gives the old anchor. -/
theorem test_witness_draw_twice_at_vf : let s := { State.reset with i := 0x050 }
    anchorColumn regVF (after (exec (.drw regVF 1 5#4) s)) = anchorColumn regVF s ∧
    anchorRow 1 (after (exec (.drw regVF 1 5#4) s)) = anchorRow 1 s := by decide
/-- The collision cases of a draw: a set cell under a 1 bit, and none. -/
theorem test_witness_collision :
    spriteBit { State.reset with i := 0x050, disp := Display.flip State.reset.disp 0 0 } 5 0 0 0 0 = true ∧
    Display.cell (Display.flip State.reset.disp 0 0) 0 0 = true ∧ setCells State.reset.disp = [] := by decide

end Sys2Proof.Machine.Tests
end

section
/-! The opcode fields of 30_encoding.md R51 as masks and shifts, and as parts of one another. -/

namespace Sys2Proof

/-- A mask whose set bits are `len` bits from bit `start` on, shifted down by `start`, is the slice the fields are
defined by: the shift distributes over `&&&`, and a mask of `len` low bits is a remainder. -/
theorem maskedSlice_toNat (w mask : Word) {start len : Nat} (hmask : mask.toNat >>> start = 2 ^ len - 1) :
    ((w &&& mask) >>> start).toNat = w.toNat / 2 ^ start % 2 ^ len := by
  rw [BitVec.toNat_ushiftRight, BitVec.toNat_and, Nat.shiftRight_and_distrib, hmask,
    Nat.and_two_pow_sub_one_eq_mod, Nat.shiftRight_eq_div_pow]

/-- `maskedSlice_toNat` for a mask of low bits, where R51 has no shift. -/
theorem maskedLow_toNat (w mask : Word) {len : Nat} (hmask : mask.toNat = 2 ^ len - 1) :
    (w &&& mask).toNat = w.toNat % 2 ^ len := by
  rw [BitVec.toNat_and, hmask, Nat.and_two_pow_sub_one_eq_mod]

/-! ### The six masks and shifts -/

theorem fieldOp_eq_maskedSlice (w : Word) : fieldOp w = ((w &&& 0xF000#16) >>> 12).setWidth 4 := by
  apply BitVec.eq_of_toNat_eq
  rw [BitVec.toNat_setWidth, maskedSlice_toNat w _ (len := 4) rfl, fieldOp_toNat]
  have := w.isLt
  omega

theorem fieldX_val_eq_maskedSlice (w : Word) : (fieldX w).val = ((w &&& 0x0F00#16) >>> 8).toNat :=
  (fieldX_val w).trans (maskedSlice_toNat w _ (start := 8) (len := 4) rfl).symm

theorem fieldY_val_eq_maskedSlice (w : Word) : (fieldY w).val = ((w &&& 0x00F0#16) >>> 4).toNat :=
  (fieldY_val w).trans (maskedSlice_toNat w _ (start := 4) (len := 4) rfl).symm

theorem fieldN_toNat_eq_maskedLow (w : Word) : (fieldN w).toNat = (w &&& 0x000F#16).toNat :=
  (fieldN_toNat w).trans (maskedLow_toNat w _ (len := 4) rfl).symm

theorem fieldNN_toNat_eq_maskedLow (w : Word) : (fieldNN w).toNat = (w &&& 0x00FF#16).toNat :=
  (fieldNN_toNat w).trans (maskedLow_toNat w _ (len := 8) rfl).symm

theorem fieldNNN_toNat_eq_maskedLow (w : Word) : (fieldNNN w).toNat = (w &&& 0x0FFF#16).toNat :=
  (fieldNNN_toNat w).trans (maskedLow_toNat w _ (len := 12) rfl).symm

/-! ### The overlapping fields and the two bytes in memory -/

theorem fieldNN_toNat_eq_fieldY_fieldN (w : Word) :
    (fieldNN w).toNat = (fieldY w).val * 16 + (fieldN w).toNat := by
  rw [fieldNN_toNat, fieldY_val, fieldN_toNat]
  omega

theorem fieldNNN_toNat_eq_fieldX_fieldY_fieldN (w : Word) :
    (fieldNNN w).toNat = (fieldX w).val * 256 + (fieldY w).val * 16 + (fieldN w).toNat := by
  rw [fieldNNN_toNat, fieldX_val, fieldY_val, fieldN_toNat]
  omega

theorem opcodeHi_toNat (w : Word) : (opcodeHi w).toNat = w.toNat / 256 := by
  have := w.isLt
  rw [opcodeHi, BitVec.extractLsb'_toNat, Nat.shiftRight_eq_div_pow]
  omega

theorem opcodeHi_toNat_eq_fieldOp_fieldX (w : Word) :
    (opcodeHi w).toNat = (fieldOp w).toNat * 16 + (fieldX w).val := by
  rw [opcodeHi_toNat, fieldOp_toNat, fieldX_val]
  omega

theorem opcodeLo_eq_fieldNN (w : Word) : opcodeLo w = fieldNN w := rfl

/-- Settles O5, from the value of each field and of each masked slice as a quotient and remainder of the opcode. -/
theorem opcodeFieldsAreTheMaskedSlices : Obligations.OpcodeFieldsAreTheMaskedSlices := by
  unfold Obligations.OpcodeFieldsAreTheMaskedSlices
  refine ⟨fun w => ?_, by decide, by decide⟩
  exact ⟨fieldOp_eq_maskedSlice w, fieldX_val_eq_maskedSlice w, fieldY_val_eq_maskedSlice w,
    fieldN_toNat_eq_maskedLow w, fieldNN_toNat_eq_maskedLow w, fieldNNN_toNat_eq_maskedLow w,
    fieldNN_toNat_eq_fieldY_fieldN w, fieldNNN_toNat_eq_fieldX_fieldY_fieldN w,
    opcodeHi_toNat_eq_fieldOp_fieldX w, opcodeLo_eq_fieldNN w⟩

end Sys2Proof
end

section
/-! The jump of 41_control_flow.md R83: its encoding, the next state, and what loading `PC` leaves unchanged. -/

namespace Sys2Proof.Machine

/-- The zero extension of R83 keeps the 12-bit target's value. -/
@[simp] theorem addressOperand_toNat (nnn : Addr12) : (addressOperand nnn).toNat = nnn.toNat :=
  BitVec.toNat_setWidth_of_le (by decide)

theorem encode_jp_toNat (nnn : Addr12) : (encode (.jp nnn)).toNat = 0x1000 + nnn.toNat :=
  packA_toNat 0x1#4 nnn

theorem exec_jp (nnn : Addr12) (s : State) : exec (.jp nnn) s = .next (s.setPc (addressOperand nnn)) := rfl

/-- The frame of every load of `PC`, whatever the value: only `PC` may differ. -/
theorem setPc_frame (w : Word) (s : State) :
    SameRegistersBut [] s (s.setPc w) ∧ (s.setPc w).i = s.i ∧ SameStack s (s.setPc w) ∧ SameDisplay s (s.setPc w) ∧
    (s.setPc w).dirty = s.dirty ∧ SameMemory s (s.setPc w) ∧ SameHostInputs s (s.setPc w) ∧ SameLatch s (s.setPc w) :=
  ⟨fun _ _ => rfl, rfl, ⟨rfl, rfl⟩, fun _ _ => rfl, rfl, fun _ => rfl, ⟨rfl, rfl, rfl⟩, ⟨rfl, rfl⟩⟩

/-- Settles O30: the jump is a load of `PC` with the zero-extended target, and a load of `PC` keeps all the rest. -/
theorem jumpLoadsTheTarget : Obligations.JumpLoadsTheTarget := by
  unfold Obligations.JumpLoadsTheTarget
  exact fun nnn s => ⟨encode_jp_toNat nnn, s.setPc (addressOperand nnn), exec_jp nnn s, addressOperand_toNat nnn,
    setPc_frame (addressOperand nnn) s⟩

end Sys2Proof.Machine
end

section
/-! The conditional skips of 42_skips.md R90: the next `PC` and the frame of a skip on any condition, and the two skips
on a byte (R91, R92). -/

namespace Sys2Proof.Machine

/-! ### A skip on any condition -/

theorem skipIf_pc_of_true {c : Bool} (hc : c = true) (s : State) : (skipIf c s).pc = s.pc + 2#16 := by
  rw [skipIf_eq, if_pos hc, State.setPc_pc]

theorem skipIf_pc_of_false {c : Bool} (hc : c = false) (s : State) : (skipIf c s).pc = s.pc := by
  rw [skipIf_eq, hc, if_neg Bool.false_ne_true, State.setPc_pc]

/-- The frame of a conditional skip, taken or not: a skip is a load of `PC`. -/
theorem skipIf_frame (c : Bool) (s : State) :
    SameRegistersBut [] s (skipIf c s) ∧ (skipIf c s).i = s.i ∧ SameStack s (skipIf c s) ∧
    SameDisplay s (skipIf c s) ∧ (skipIf c s).dirty = s.dirty ∧ SameMemory s (skipIf c s) ∧
    SameHostInputs s (skipIf c s) ∧ SameLatch s (skipIf c s) :=
  skipIf_eq c s ▸ setPc_frame _ s

/-! ### The skips on a byte -/

theorem encode_seVxNn_toNat (x : Reg) (nn : Byte) :
    (encode (.seVxNn x nn)).toNat = 0x3000 + x.val * 256 + nn.toNat :=
  packXB_toNat 0x3#4 x nn

theorem encode_sneVxNn_toNat (x : Reg) (nn : Byte) :
    (encode (.sneVxNn x nn)).toNat = 0x4000 + x.val * 256 + nn.toNat :=
  packXB_toNat 0x4#4 x nn

theorem exec_seVxNn (x : Reg) (nn : Byte) (s : State) :
    exec (.seVxNn x nn) s = .next (skipIf (s.readV x == nn) s) := rfl

theorem exec_sneVxNn (x : Reg) (nn : Byte) (s : State) :
    exec (.sneVxNn x nn) s = .next (skipIf (s.readV x != nn) s) := rfl

/-- Settles O37: each of the two is a skip on its own condition, `==` or `!=` of the register and the byte, and bytes
are equal exactly when their values are. -/
theorem byteSkipsSkipExactlyOnTheirCondition : Obligations.ByteSkipsSkipExactlyOnTheirCondition := by
  unfold Obligations.ByteSkipsSkipExactlyOnTheirCondition
  intro x nn s
  refine ⟨encode_seVxNn_toNat x nn, encode_sneVxNn_toNat x nn,
    ⟨_, exec_seVxNn x nn s, fun heq => ?_, fun hne => ?_, skipIf_frame _ s⟩,
    ⟨_, exec_sneVxNn x nn s, fun hne => ?_, fun heq => ?_, skipIf_frame _ s⟩⟩
  · exact skipIf_pc_of_true (beq_iff_eq.2 (BitVec.eq_of_toNat_eq heq)) s
  · exact skipIf_pc_of_false (beq_eq_false_iff_ne.2 (BitVec.toNat_ne_iff_ne.1 hne)) s
  · exact skipIf_pc_of_true (bne_iff_ne.2 (BitVec.toNat_ne_iff_ne.1 hne)) s
  · exact skipIf_pc_of_false (bne_eq_false_iff_eq.2 (BitVec.eq_of_toNat_eq heq)) s

end Sys2Proof.Machine
end

section
/-! The loads and the add of 43_load_add.md (R100 to R102): what a write of one general register, or of `I`, leaves
unchanged, and each instruction as such a write. -/

namespace Sys2Proof.Machine

/-! ### The frame of a write to a general register and to `I` -/

theorem setV_sameRegistersBut (x : Reg) (b : Byte) (s : State) : SameRegistersBut [x] s (s.setV x b) :=
  fun r hr => State.readV_setV_of_ne s x r b (List.ne_of_not_mem_cons hr)

/-- The frame of a register write outside the general registers, whatever the register and the byte. -/
theorem setV_frame (x : Reg) (b : Byte) (s : State) :
    (s.setV x b).i = s.i ∧ (s.setV x b).pc = s.pc ∧ SameStack s (s.setV x b) ∧ SameDisplay s (s.setV x b) ∧
    (s.setV x b).dirty = s.dirty ∧ SameMemory s (s.setV x b) ∧ SameHostInputs s (s.setV x b) ∧
    SameLatch s (s.setV x b) :=
  ⟨rfl, rfl, ⟨rfl, rfl⟩, fun _ _ => rfl, rfl, fun _ => rfl, ⟨rfl, rfl, rfl⟩, ⟨rfl, rfl⟩⟩

/-- The frame of every load of `I`, whatever the value: only `I` may differ. -/
theorem setI_frame (w : Word) (s : State) :
    SameRegistersBut [] s (s.setI w) ∧ (s.setI w).pc = s.pc ∧ SameStack s (s.setI w) ∧ SameDisplay s (s.setI w) ∧
    (s.setI w).dirty = s.dirty ∧ SameMemory s (s.setI w) ∧ SameHostInputs s (s.setI w) ∧ SameLatch s (s.setI w) :=
  ⟨fun _ _ => rfl, rfl, ⟨rfl, rfl⟩, fun _ _ => rfl, rfl, fun _ => rfl, ⟨rfl, rfl, rfl⟩, ⟨rfl, rfl⟩⟩

/-! ### The load of a byte -/

theorem encode_ldVxNn_toNat (x : Reg) (nn : Byte) :
    (encode (.ldVxNn x nn)).toNat = 0x6000 + x.val * 256 + nn.toNat :=
  packXB_toNat 0x6#4 x nn

theorem exec_ldVxNn (x : Reg) (nn : Byte) (s : State) : exec (.ldVxNn x nn) s = .next (s.setV x nn) := rfl

/-- Settles O39: the load is a write of the byte to `V[X]`, and such a write keeps all the rest. -/
theorem loadByteWritesTheRegister : Obligations.LoadByteWritesTheRegister := by
  unfold Obligations.LoadByteWritesTheRegister
  exact fun x nn s => ⟨encode_ldVxNn_toNat x nn, s.setV x nn, exec_ldVxNn x nn s, State.readV_setV_self s x nn,
    setV_sameRegistersBut x nn s, setV_frame x nn s⟩

/-! ### The add of a byte -/

theorem encode_addVxNn_toNat (x : Reg) (nn : Byte) :
    (encode (.addVxNn x nn)).toNat = 0x7000 + x.val * 256 + nn.toNat :=
  packXB_toNat 0x7#4 x nn

theorem exec_addVxNn (x : Reg) (nn : Byte) (s : State) :
    exec (.addVxNn x nn) s = .next (s.setV x (s.readV x + nn)) := rfl

/-- Settles O40: the add is a write of the byte sum, which wraps at 256, to `V[X]`; VF is one of the other registers
unless it is `V[X]`. -/
theorem addByteWrapsAndWritesNoFlag : Obligations.AddByteWrapsAndWritesNoFlag := by
  unfold Obligations.AddByteWrapsAndWritesNoFlag
  intro x nn s
  refine ⟨encode_addVxNn_toNat x nn, s.setV x (s.readV x + nn), exec_addVxNn x nn s, ?_,
    setV_sameRegistersBut x _ s, fun hx => ?_, setV_frame x _ s⟩
  · rw [State.readV_setV_self, BitVec.toNat_add]
  · exact State.readV_setV_of_ne s x regVF _ hx.symm

/-! ### The load of `I` -/

theorem encode_ldINnn_toNat (nnn : Addr12) : (encode (.ldINnn nnn)).toNat = 0xA000 + nnn.toNat :=
  packA_toNat 0xA#4 nnn

theorem exec_ldINnn (nnn : Addr12) (s : State) : exec (.ldINnn nnn) s = .next (s.setI (addressOperand nnn)) := rfl

/-- Settles O41: the index load is a load of `I` with the zero-extended address, whose value is the address's, so the
top four bits are 0; a load of `I` keeps all the rest. -/
theorem loadIndexWritesAllSixteenBits : Obligations.LoadIndexWritesAllSixteenBits := by
  unfold Obligations.LoadIndexWritesAllSixteenBits
  exact fun nnn s => ⟨encode_ldINnn_toNat nnn, s.setI (addressOperand nnn), exec_ldINnn nnn s,
    addressOperand_toNat nnn, setI_frame (addressOperand nnn) s⟩

end Sys2Proof.Machine
end

section
/-! The display writers of 44_display.md: the frame of a write to the display and `DIRTY`, the clear (R111), and what
`DIRTY` says after a step (R114). -/

namespace Sys2Proof.Machine

/-! ### The clear -/

theorem exec_cls (s : State) : exec .cls s = .next ((s.setDisp Display.clear).setDirty true) := rfl

/-- The frame of a write to the display and `DIRTY`, whatever the two values: nothing else may differ. -/
theorem setDisp_setDirty_frame (d : Display) (b : Bool) (s : State) :
    SameRegistersBut [] s ((s.setDisp d).setDirty b) ∧ ((s.setDisp d).setDirty b).i = s.i ∧
    ((s.setDisp d).setDirty b).pc = s.pc ∧ SameStack s ((s.setDisp d).setDirty b) ∧
    SameMemory s ((s.setDisp d).setDirty b) ∧ SameHostInputs s ((s.setDisp d).setDirty b) ∧
    SameLatch s ((s.setDisp d).setDirty b) :=
  ⟨fun _ _ => rfl, rfl, rfl, ⟨rfl, rfl⟩, fun _ => rfl, ⟨rfl, rfl, rfl⟩, ⟨rfl, rfl⟩⟩

/-- Settles O42: the clear writes the all-false display and `DIRTY`, whatever they were, and such a write keeps all the
rest. -/
theorem clearLeavesEveryCellFalseAndSetsDirty : Obligations.ClearLeavesEveryCellFalseAndSetsDirty := by
  unfold Obligations.ClearLeavesEveryCellFalseAndSetsDirty
  exact ⟨rfl, fun s => ⟨_, exec_cls s, Display.cell_clear, rfl, setDisp_setDirty_frame Display.clear true s⟩⟩

/-! ### `DIRTY` after an instruction and after a step -/

/-- The two instructions that write the display (R114). -/
def DrawsOrClears (i : Instr) : Prop := i = .cls ∨ ∃ x y n, i = .drw x y n

/-- `DIRTY` and every display cell as before. -/
def KeepsDisplay (s t : State) : Prop := t.dirty = s.dirty ∧ SameDisplay s t

theorem setTrap_keepsDisplay (c : TrapCause) (w : Word) (s : State) : KeepsDisplay s (s.setTrap c w) :=
  ⟨rfl, fun _ _ => rfl⟩

theorem skipIf_keepsDisplay (c : Bool) (s : State) : KeepsDisplay s (skipIf c s) := by
  obtain ⟨-, -, -, hdisp, hdirty, -⟩ := skipIf_frame c s
  exact ⟨hdirty, hdisp⟩

/-- A clear or draw writes `DIRTY` and takes no trap, or traps before any write of the two. -/
theorem exec_cases_of_drawsOrClears {i : Instr} {s t : State} (hi : DrawsOrClears i) (h : exec i s = .next t) :
    (t.dirty = true ∧ t.trapCause = s.trapCause) ∨ (Trapped t ∧ KeepsDisplay s t) := by
  obtain rfl | ⟨x, y, n, rfl⟩ := hi
  · cases h
    exact .inl ⟨rfl, rfl⟩
  · obtain ⟨-, rows, -, -, hdraw⟩ | ⟨-, htrap⟩ := execDrw_cases x y n s
    · cases hdraw.symm.trans h
      exact .inl ⟨rfl, rfl⟩
    · cases htrap.symm.trans h
      exact .inr ⟨by simp [Trapped], setTrap_keepsDisplay _ _ s⟩

/-- The ten other instructions leave the display and `DIRTY` alone, on their trapping paths too. -/
theorem exec_keepsDisplay {i : Instr} {s t : State} (hi : ¬ DrawsOrClears i) (h : exec i s = .next t) :
    KeepsDisplay s t := by
  cases i with
  | cls => exact absurd (.inl rfl) hi
  | drw x y n => exact absurd (.inr ⟨x, y, n, rfl⟩) hi
  | ret =>
    obtain ⟨-, hr⟩ | ⟨-, hr⟩ := execRet_cases s <;> cases hr.symm.trans h <;> exact ⟨rfl, fun _ _ => rfl⟩
  | call nnn =>
    obtain ⟨_, hr⟩ | ⟨-, hr⟩ := execCall_cases nnn s <;> cases hr.symm.trans h <;> exact ⟨rfl, fun _ _ => rfl⟩
  | seVxNn | sneVxNn | seVxVy | sneVxVy => cases h; exact skipIf_keepsDisplay _ s
  | jp | ldVxNn | addVxNn | ldINnn => cases h; exact ⟨rfl, fun _ _ => rfl⟩

/-- What a step does to `DIRTY` and the display, by the instruction it ran: `DIRTY` was cleared at its start, so only an
untrapped clear or draw leaves it true. -/
theorem step_dirty_cases {s t : State} (h : step s = .next t) :
    (t.dirty = true ∧ ¬ Trapped t ∧
      ∃ w i, fetchOpcode? s = some w ∧ decode w = .instruction i ∧ DrawsOrClears i) ∨
    (t.dirty = false ∧ SameDisplay s t ∧
      (Trapped t ∨ ∀ w i, fetchOpcode? s = some w → decode w = .instruction i → ¬ DrawsOrClears i)) := by
  obtain ⟨-, hs⟩ | ⟨-, -, hs⟩ | ⟨-, -, w, -, -, hs⟩ | ⟨hc, -, w, i, hw, hd, hs⟩ := step_cases s
  · cases hs.symm.trans h
  · cases hs.symm.trans h
    exact .inr ⟨rfl, fun _ _ => rfl, .inl (by simp [Trapped])⟩
  · cases hs.symm.trans h
    exact .inr ⟨rfl, fun _ _ => rfl, .inl (by simp [Trapped])⟩
  · have hexec := hs.symm.trans h
    by_cases hi : DrawsOrClears i
    · obtain ⟨hdirty, hcause⟩ | ⟨htrap, hdirty, hdisp⟩ := exec_cases_of_drawsOrClears hi hexec
      · exact .inl ⟨hdirty, not_not.2 (hcause.trans hc), w, i, hw, hd, hi⟩
      · exact .inr ⟨hdirty, hdisp, .inl htrap⟩
    · obtain ⟨hdirty, hdisp⟩ := exec_keepsDisplay hi hexec
      refine .inr ⟨hdirty, hdisp, .inr fun w' i' hw' hd' => ?_⟩
      obtain rfl := Option.some.inj (hw.symm.trans hw')
      obtain rfl := Decoded.instruction.inj (hd.symm.trans hd')
      exact hi

/-- Settles O22: either the step ran a clear or draw without a trap and `DIRTY` is true, or it did not, and then `DIRTY`
is false and the display is as before. -/
theorem dirtyTellsWhetherTheStepDrewOrCleared : Obligations.DirtyTellsWhetherTheStepDrewOrCleared := by
  unfold Obligations.DirtyTellsWhetherTheStepDrewOrCleared
  intro s t h
  obtain ⟨hdirty, hrest⟩ | ⟨hdirty, hdisp, hno⟩ := step_dirty_cases h
  · exact ⟨iff_of_true hdirty hrest, fun hfalse => Bool.noConfusion (hdirty.symm.trans hfalse)⟩
  · refine ⟨iff_of_false (by simp [hdirty]) ?_, fun _ => hdisp⟩
    rintro ⟨htrap, w, i, hw, hd, hi⟩
    exact hno.elim htrap fun hno => hno w i hw hd hi

end Sys2Proof.Machine
end

section
/-! Encoder and decoder are inverse to each other (30_encoding.md sections 1 and 2), and the opcodes of the table's rows
are the encodings and no others. -/

namespace Sys2Proof

/-! ### The decoder inverts the encoder -/

/-- No bit of an encoding is dropped: the dispatch reads back the major opcode, and each field its operand. -/
theorem decode_encode (i : Instr) : decode (encode i) = .instruction i := by
  cases i with
  | cls | ret => decide
  | seVxVy x y | sneVxVy x y => simp [encode, decode, decodeXY]
  | _ => simp [encode, decode]

/-- Settles O1: it holds of every instruction, and every instruction is well formed. -/
theorem decodeOfEncodeIsTheInstruction : Obligations.DecodeOfEncodeIsTheInstruction := by
  unfold Obligations.DecodeOfEncodeIsTheInstruction
  exact fun i _ => decode_encode i

/-- Settles O6: each word is the encoding of its instruction, written out; 0x8014 has a major opcode of no row. -/
theorem wordsOfTheEncodingTableDecode : Obligations.WordsOfTheEncodingTableDecode := by
  unfold Obligations.WordsOfTheEncodingTableDecode
  exact ⟨decode_encode .cls, decode_encode .ret, decode_encode (.jp 0xFFF#12), decode_encode (.seVxNn 10 0xFF#8),
    decode_encode (.seVxVy 10 11), decode_encode (.ldVxNn 15 0x2A#8), decode_encode (.ldINnn 0x050#12),
    decode_encode (.drw 1 2 3#4), by decide⟩

/-! ### Packing an opcode's own fields gives the opcode back -/

theorem packA_fields {w : Word} {op : Nibble} (h : w.toNat / 4096 = op.toNat) : packA op (fieldNNN w) = w := by
  apply BitVec.eq_of_toNat_eq
  rw [packA_toNat, fieldNNN_toNat]
  omega

theorem packXB_fields {w : Word} {op : Nibble} (h : w.toNat / 4096 = op.toNat) :
    packXB op (fieldX w) (fieldNN w) = w := by
  apply BitVec.eq_of_toNat_eq
  rw [packXB_toNat, fieldX_val, fieldNN_toNat]
  omega

theorem packXYN_fields {w : Word} {op n : Nibble} (h : w.toNat / 4096 = op.toNat) (hn : w.toNat % 16 = n.toNat) :
    packXYN op (fieldX w) (fieldY w) n = w := by
  apply BitVec.eq_of_toNat_eq
  rw [packXYN_toNat, fieldX_val, fieldY_val]
  omega

/-- A decoded instruction is packed from the opcode's own fields, under the major opcode it was dispatched on. -/
theorem encode_of_decode {w : Word} {i : Instr} (h : decode w = .instruction i) : encode i = w := by
  obtain ⟨hw, hd⟩ | ⟨hw, hd⟩ | ⟨hop, hd⟩ | ⟨hop, hd⟩ | ⟨hop, hd⟩ | ⟨hop, hd⟩ | ⟨hop, hn, hd⟩ | ⟨hop, hd⟩ | ⟨hop, hd⟩ |
    ⟨hop, hn, hd⟩ | ⟨hop, hd⟩ | ⟨hop, hd⟩ | ⟨-, hd⟩ := decode_cases w <;> cases hd.symm.trans h
  · exact hw.symm
  · exact hw.symm
  · exact packA_fields hop
  · exact packA_fields hop
  · exact packXB_fields hop
  · exact packXB_fields hop
  · exact packXYN_fields hop hn
  · exact packXB_fields hop
  · exact packXB_fields hop
  · exact packXYN_fields hop hn
  · exact packA_fields hop
  · exact packXYN_fields hop (fieldN_toNat w).symm

/-- Settles O2. -/
theorem encodeOfDecodeIsTheOpcode : Obligations.EncodeOfDecodeIsTheOpcode := by
  unfold Obligations.EncodeOfDecodeIsTheOpcode
  exact fun _ _ h => encode_of_decode h

/-! ### Rows by mask and match -/

theorem encode_and_rowMask (i : Instr) : encode i &&& i.rowMask = i.rowMatch := by
  cases i with
  | cls => exact Laws.EncodingMatchesRow.cls
  | ret => exact Laws.EncodingMatchesRow.ret
  | jp nnn => exact Laws.EncodingMatchesRow.jp nnn
  | call nnn => exact Laws.EncodingMatchesRow.call nnn
  | seVxNn x nn => exact Laws.EncodingMatchesRow.seVxNn x nn
  | sneVxNn x nn => exact Laws.EncodingMatchesRow.sneVxNn x nn
  | seVxVy x y => exact Laws.EncodingMatchesRow.seVxVy x y
  | ldVxNn x nn => exact Laws.EncodingMatchesRow.ldVxNn x nn
  | addVxNn x nn => exact Laws.EncodingMatchesRow.addVxNn x nn
  | sneVxVy x y => exact Laws.EncodingMatchesRow.sneVxVy x y
  | ldINnn nnn => exact Laws.EncodingMatchesRow.ldINnn nnn
  | drw x y n => exact Laws.EncodingMatchesRow.drw x y n

/-- The mask 0xF000 fixes the major opcode. -/
theorem major_of_and_F000 {w : Word} {op : Nibble} (h : w &&& 0xF000#16 = packA op 0#12) :
    w.toNat / 4096 = op.toNat := by
  rw [Laws.and_F000, fieldOp_toNat] at h
  have hnat := congrArg BitVec.toNat h
  rw [BitVec.toNat_ofNat, packA_toNat, BitVec.toNat_ofNat] at hnat
  omega

/-- The mask 0xF00F fixes the low nibble as well (the spec's decision D7). -/
theorem packXYN_of_and_F00F {w : Word} {op : Nibble} (h : w &&& 0xF00F#16 = packA op 0#12) :
    packXYN op (fieldX w) (fieldY w) 0#4 = w := by
  have hlow : w &&& 0x000F#16 = packA op 0#12 &&& 0x000F#16 := by rw [← h, BitVec.and_assoc]; rfl
  have hn : fieldN w = 0#4 := by
    apply BitVec.eq_of_toNat_eq
    rw [fieldN_toNat_eq_maskedLow, hlow, ← fieldN_toNat_eq_maskedLow, fieldN_toNat, packA_toNat, BitVec.toNat_ofNat,
      BitVec.toNat_ofNat]
    omega
  rw [Laws.and_F00F w hn] at h
  exact packXYN_fields (major_of_and_F000 h) (by rw [← fieldN_toNat, hn])

/-- An opcode that meets a row's mask and match is the encoding of an instruction of that row, with the opcode's own
fields as its operands. -/
theorem exists_encode_of_and_rowMask {w : Word} {j : Instr} (h : w &&& j.rowMask = j.rowMatch) :
    ∃ i : Instr, encode i = w ∧ i.rowMask = j.rowMask ∧ i.rowMatch = j.rowMatch := by
  cases j with
  | cls => exact ⟨.cls, h.symm.trans BitVec.and_allOnes, rfl, rfl⟩
  | ret => exact ⟨.ret, h.symm.trans BitVec.and_allOnes, rfl, rfl⟩
  | jp => exact ⟨.jp (fieldNNN w), packA_fields (major_of_and_F000 h), rfl, rfl⟩
  | call => exact ⟨.call (fieldNNN w), packA_fields (major_of_and_F000 h), rfl, rfl⟩
  | seVxNn => exact ⟨.seVxNn (fieldX w) (fieldNN w), packXB_fields (major_of_and_F000 h), rfl, rfl⟩
  | sneVxNn => exact ⟨.sneVxNn (fieldX w) (fieldNN w), packXB_fields (major_of_and_F000 h), rfl, rfl⟩
  | seVxVy => exact ⟨.seVxVy (fieldX w) (fieldY w), packXYN_of_and_F00F h, rfl, rfl⟩
  | ldVxNn => exact ⟨.ldVxNn (fieldX w) (fieldNN w), packXB_fields (major_of_and_F000 h), rfl, rfl⟩
  | addVxNn => exact ⟨.addVxNn (fieldX w) (fieldNN w), packXB_fields (major_of_and_F000 h), rfl, rfl⟩
  | sneVxVy => exact ⟨.sneVxVy (fieldX w) (fieldY w), packXYN_of_and_F00F h, rfl, rfl⟩
  | ldINnn => exact ⟨.ldINnn (fieldNNN w), packA_fields (major_of_and_F000 h), rfl, rfl⟩
  | drw =>
    exact ⟨.drw (fieldX w) (fieldY w) (fieldN w), packXYN_fields (major_of_and_F000 h) (fieldN_toNat w).symm, rfl, rfl⟩

/-- Settles O3: a decoded opcode is its instruction's encoding, which meets its row; and an opcode that meets a row is
an encoding of that row, which decodes. -/
theorem decodingIsExactlyMaskAndMatch : Obligations.DecodingIsExactlyMaskAndMatch := by
  unfold Obligations.DecodingIsExactlyMaskAndMatch
  refine fun w => ⟨fun i h => ?_, fun j h => ?_⟩
  · rw [← encode_of_decode h]
    exact encode_and_rowMask i
  · obtain ⟨i, rfl, hmask, hmatch⟩ := exists_encode_of_and_rowMask h
    exact ⟨i, decode_encode i, hmask, hmatch⟩

/-- Settles O4: the decoder rejects the listed values, and each value it accepts is excluded by the list. -/
theorem unrecognizedOpcodesAreExactlyTheUnlisted : Obligations.UnrecognizedOpcodesAreExactlyTheUnlisted := by
  unfold Obligations.UnrecognizedOpcodesAreExactlyTheUnlisted
  intro w
  obtain ⟨rfl, hd⟩ | ⟨rfl, hd⟩ | ⟨hop, hd⟩ | ⟨hop, hd⟩ | ⟨hop, hd⟩ | ⟨hop, hd⟩ | ⟨hop, hn, hd⟩ | ⟨hop, hd⟩ | ⟨hop, hd⟩ |
    ⟨hop, hn, hd⟩ | ⟨hop, hd⟩ | ⟨hop, hd⟩ | ⟨hlisted, hd⟩ := decode_cases w
  rotate_left 12
  · exact iff_of_true hd hlisted
  all_goals refine iff_of_false (by simp [hd]) ?_
  · decide
  · decide
  all_goals omega

end Sys2Proof
end

section
/-! The instructions with more than one branch, or not yet stated as an equation: one rule per branch. -/

namespace Sys2Proof.Machine

theorem exec_seVxVy (x y : Reg) (s : State) :
    exec (.seVxVy x y) s = .next (skipIf (s.readV x == s.readV y) s) := rfl

theorem exec_sneVxVy (x y : Reg) (s : State) :
    exec (.sneVxVy x y) s = .next (skipIf (s.readV x != s.readV y) s) := rfl

/-- The sprite's bit of a draw on a cell, at the draw's own anchor. -/
def drawBit (x y : Reg) (n : Nibble) (s : State) (cx : Fin 64) (cy : Fin 32) : Bool :=
  spriteBit s n.toNat (anchorColumn x s) (anchorRow y s) cx cy

section
variable {x y : Reg} {n : Nibble} {s : State}

theorem exec_ret_of_ne (h : s.sp ≠ 0#8) :
    exec .ret s = .next ((s.setSp (s.sp - 1#8)).setPc (stackEntry s (s.sp - 1#8))) :=
  (execRet_cases s).elim And.right fun ⟨h0, _⟩ => absurd h0 h

theorem exec_ret_of_empty (h : s.sp = 0#8) : exec .ret s = .next (s.setTrap .stackUnderflow 0x00EE#16) :=
  (execRet_cases s).elim (fun ⟨hne, _⟩ => absurd h hne) And.right

theorem exec_call_of_lt (nnn : Addr12) (h : s.sp.toNat < 16) : exec (.call nnn) s =
    .next (((s.setStack ⟨s.sp.toNat, h⟩ s.pc).setSp (s.sp + 1#8)).setPc (addressOperand nnn)) :=
  (execCall_cases nnn s).elim (fun ⟨_, hr⟩ => hr) fun ⟨hfull, _⟩ => absurd h (Nat.not_lt.2 hfull)

theorem exec_call_of_full (nnn : Addr12) (h : 16 ≤ s.sp.toNat) :
    exec (.call nnn) s = .next (s.setTrap .stackOverflow (encode (.call nnn))) :=
  (execCall_cases nnn s).elim (fun ⟨hlt, _⟩ => absurd hlt (Nat.not_lt.2 h)) And.right

/-- A draw in range, in closed form: each cell xor the sprite's bit on it, and whether a set cell lay under a 1 bit. -/
theorem exec_drw_of_fits (h : s.i.toNat + n.toNat ≤ 4096) :
    ∃ (d : Display) (hit : Bool),
      exec (.drw x y n) s = .next (((s.setV regVF (collisionFlag hit)).setDisp d).setDirty true) ∧
      (∀ cx cy, Display.cell d cx cy = (Display.cell s.disp cx cy ^^ drawBit x y n s cx cy)) ∧
      (hit = true ↔ ∃ cx cy, drawBit x y n s cx cy = true ∧ Display.cell s.disp cx cy = true) := by
  obtain ⟨-, rows, hl, hb, hr⟩ | ⟨hout, -⟩ := execDrw_cases x y n s
  · obtain ⟨d, hit, hd, hcell, hhit⟩ := drawSprite_spec (x := x) (y := y) hl hb
    exact ⟨d, hit, hr.trans (congrArg Host.Outcome.next hd), hcell, hhit⟩
  · exact absurd h (Nat.not_le.2 hout)

theorem exec_drw_of_outside (h : s.i.toNat + n.toNat > 4096) :
    exec (.drw x y n) s = .next (s.setTrap .drawSourceOutOfRange (encode (.drw x y n))) :=
  (execDrw_cases x y n s).elim (fun ⟨hin, _⟩ => absurd h (Nat.not_lt.2 hin)) And.right

end

end Sys2Proof.Machine
end

section
/-! Everything an instruction can do, said once: its trap where its own rule names one (60_exceptions.md R121, R126),
and otherwise its effect. The statements about steps below are case splits on this. -/

namespace Sys2Proof.Machine

/-- The trap that the rule of an instruction names in a state, `none` where it names none (60_exceptions.md R121). -/
def trapOf (i : Instr) (s : State) : TrapCause :=
  match i with
  | .ret => if s.sp = 0#8 then .stackUnderflow else .none
  | .call _ => if 16 ≤ s.sp.toNat then .stackOverflow else .none
  | .drw _ _ n => if 4096 < s.i.toNat + n.toNat then .drawSourceOutOfRange else .none
  | _ => .none

/-- The next states of an instruction: the latch and nothing else where it traps, its effect where it does not. -/
inductive ExecTo (s : State) : Instr → State → Prop
  | trap {i : Instr} (htrap : trapOf i s ≠ .none) : ExecTo s i (s.setTrap (trapOf i s) (encode i))
  | cls : ExecTo s .cls ((s.setDisp Display.clear).setDirty true)
  | ret (hsp : s.sp ≠ 0#8) : ExecTo s .ret ((s.setSp (s.sp - 1#8)).setPc (stackEntry s (s.sp - 1#8)))
  | jp (nnn : Addr12) : ExecTo s (.jp nnn) (s.setPc (addressOperand nnn))
  | call (nnn : Addr12) (hsp : s.sp.toNat < 16) :
      ExecTo s (.call nnn) (((s.setStack ⟨s.sp.toNat, hsp⟩ s.pc).setSp (s.sp + 1#8)).setPc (addressOperand nnn))
  | seVxNn (x : Reg) (nn : Byte) :
      ExecTo s (.seVxNn x nn) (s.setPc (if s.readV x = nn then s.pc + 2#16 else s.pc))
  | sneVxNn (x : Reg) (nn : Byte) :
      ExecTo s (.sneVxNn x nn) (s.setPc (if s.readV x ≠ nn then s.pc + 2#16 else s.pc))
  | seVxVy (x y : Reg) :
      ExecTo s (.seVxVy x y) (s.setPc (if s.readV x = s.readV y then s.pc + 2#16 else s.pc))
  | sneVxVy (x y : Reg) :
      ExecTo s (.sneVxVy x y) (s.setPc (if s.readV x ≠ s.readV y then s.pc + 2#16 else s.pc))
  | ldVxNn (x : Reg) (nn : Byte) : ExecTo s (.ldVxNn x nn) (s.setV x nn)
  | addVxNn (x : Reg) (nn : Byte) : ExecTo s (.addVxNn x nn) (s.setV x (s.readV x + nn))
  | ldINnn (nnn : Addr12) : ExecTo s (.ldINnn nnn) (s.setI (addressOperand nnn))
  | drw (x y : Reg) (n : Nibble) (d : Display) (hit : Bool) (hrange : s.i.toNat + n.toNat ≤ 4096)
      (hcell : ∀ cx cy, Display.cell d cx cy = (Display.cell s.disp cx cy ^^ drawBit x y n s cx cy))
      (hhit : hit = true ↔ ∃ cx cy, drawBit x y n s cx cy = true ∧ Display.cell s.disp cx cy = true) :
      ExecTo s (.drw x y n) (((s.setV regVF (collisionFlag hit)).setDisp d).setDirty true)

section
variable {i : Instr} {s t : State}

/-- A trap of an instruction's own rule is taken as `setTrap` with the instruction's encoding. -/
theorem ExecTo.of_setTrap {c : TrapCause} {w : Word} (hc : trapOf i s = c) (hne : c ≠ .none) (hw : encode i = w) :
    ExecTo s i (s.setTrap c w) := by
  subst hc hw
  exact .trap hne

/-- `ExecTo` is what `exec` answers. -/
theorem execTo_of_exec (h : exec i s = .next t) : ExecTo s i t := by
  cases i with
  | ret =>
    by_cases hsp : s.sp = 0#8
    · cases (exec_ret_of_empty hsp).symm.trans h
      exact .of_setTrap (if_pos hsp) (by decide) rfl
    · cases (exec_ret_of_ne hsp).symm.trans h
      exact .ret hsp
  | call nnn =>
    by_cases hsp : s.sp.toNat < 16
    · cases (exec_call_of_lt nnn hsp).symm.trans h
      exact .call nnn hsp
    · have hfull := Nat.not_lt.1 hsp
      cases (exec_call_of_full nnn hfull).symm.trans h
      exact .of_setTrap (if_pos hfull) (by decide) rfl
  | drw x y n =>
    by_cases hrange : s.i.toNat + n.toNat ≤ 4096
    · obtain ⟨d, hit, hdraw, hcell, hhit⟩ := exec_drw_of_fits (x := x) (y := y) hrange
      cases hdraw.symm.trans h
      exact .drw x y n d hit hrange hcell hhit
    · have hout := Nat.not_le.1 hrange
      cases (exec_drw_of_outside hout).symm.trans h
      exact .of_setTrap (if_pos hout) (by decide) rfl
  | cls => cases h; exact .cls
  | jp nnn => cases h; exact .jp nnn
  | seVxNn x nn =>
    cases h
    rw [skipIf_eq]
    simpa only [beq_iff_eq] using ExecTo.seVxNn x nn
  | sneVxNn x nn =>
    cases h
    rw [skipIf_eq]
    simpa only [bne_iff_ne] using ExecTo.sneVxNn x nn
  | seVxVy x y =>
    cases h
    rw [skipIf_eq]
    simpa only [beq_iff_eq] using ExecTo.seVxVy x y
  | ldVxNn x nn => cases h; exact .ldVxNn x nn
  | addVxNn x nn => cases h; exact .addVxNn x nn
  | sneVxVy x y =>
    cases h
    rw [skipIf_eq]
    simpa only [bne_iff_ne] using ExecTo.sneVxVy x y
  | ldINnn nnn => cases h; exact .ldINnn nnn

/-! ### What every instruction keeps -/

/-- No instruction writes memory, timers or keys. -/
theorem ExecTo.keeps_mem (h : ExecTo s i t) : t.mem = s.mem := by
  cases h <;> rfl

theorem ExecTo.sameHostInputs (h : ExecTo s i t) : SameHostInputs s t := by
  cases h <;> exact ⟨rfl, rfl, rfl⟩

/-- The latch is written exactly where the instruction's rule names a trap, and then nothing else is. -/
theorem ExecTo.trap_or_sameLatch (h : ExecTo s i t) :
    (trapOf i s ≠ .none ∧ t = s.setTrap (trapOf i s) (encode i)) ∨ (trapOf i s = .none ∧ SameLatch s t) := by
  cases h with
  | trap htrap => exact .inl ⟨htrap, rfl⟩
  | ret hsp => exact .inr ⟨if_neg hsp, rfl, rfl⟩
  | call nnn hsp => exact .inr ⟨if_neg (Nat.not_le.2 hsp), rfl, rfl⟩
  | drw x y n d hit hrange => exact .inr ⟨if_neg (Nat.not_lt.2 hrange), rfl, rfl⟩
  | _ => exact .inr ⟨rfl, rfl, rfl⟩

end

end Sys2Proof.Machine
end

section
/-! The invariants of 10_state.md section 8: every instruction, every step and every host operation keeps them. -/

namespace Sys2Proof.Machine

section
variable {i : Instr} {s t : State}

/-- The invariants speak of `SP`, `I`, `PC`, the stack and the memory only. -/
theorem Invariant.of_pc_le (hs : Invariant s) (hsp : t.sp = s.sp) (hi : t.i = s.i) (hstack : t.stack = s.stack)
    (hmem : t.mem = s.mem) (hpc : t.pc.toNat ≤ 0x1002) : Invariant t where
  sp_le := hsp ▸ hs.sp_le
  i_le := hi ▸ hs.i_le
  pc_le := hpc
  live := by rw [hsp, hstack]; exact hs.live
  mem_wf := hmem ▸ hs.mem_wf

/-- The fetch advance, and a skip after it, stay far below the wrap at 65536. -/
theorem pc_add_two_toNat {w : Word} (h : w.toNat ≤ 0x1000) : (w + 2#16).toNat = w.toNat + 2 := by
  bv_omega

theorem addressOperand_le (nnn : Addr12) : (addressOperand nnn).toNat ≤ 0xFFF := by
  have := nnn.isLt
  rw [addressOperand_toNat]
  omega

theorem Invariant.skip (hs : Invariant s) (hpc : s.pc.toNat ≤ 0x1000) (c : Prop) [Decidable c] :
    Invariant (s.setPc (if c then s.pc + 2#16 else s.pc)) := by
  refine hs.of_pc_le rfl rfl rfl rfl ?_
  rw [State.setPc_pc]
  split
  · rw [pc_add_two_toNat hpc]; omega
  · omega

/-- A pop loads a live entry, and the entries left are live before it. -/
theorem Invariant.pop (hs : Invariant s) (hsp : s.sp ≠ 0#8) :
    Invariant ((s.setSp (s.sp - 1#8)).setPc (stackEntry s (s.sp - 1#8))) := by
  have hpred := sp_pred_toNat hsp
  have hle := hs.sp_le
  have hlt : (s.sp - 1#8).toNat < 16 := by omega
  obtain ⟨-, hentry⟩ := hs.live ⟨(s.sp - 1#8).toNat, hlt⟩ (by simp only; omega)
  refine ⟨?_, hs.i_le, ?_, fun j hj => hs.live j ?_, hs.mem_wf⟩
  · simp only [State.setPc_sp, State.setSp_sp]; omega
  · rw [State.setPc_pc, stackEntry_of_lt hlt]; exact hentry.trans (by decide)
  · simp only [State.setPc_sp, State.setSp_sp] at hj; omega

/-- A push adds one live entry, the advanced `PC`. -/
theorem Invariant.push (hs : Invariant s) (hpc : 2 ≤ s.pc.toNat ∧ s.pc.toNat ≤ 0x1000) (nnn : Addr12)
    (hsp : s.sp.toNat < 16) :
    Invariant (((s.setStack ⟨s.sp.toNat, hsp⟩ s.pc).setSp (s.sp + 1#8)).setPc (addressOperand nnn)) := by
  have hsucc := sp_succ_toNat hsp
  refine ⟨?_, hs.i_le, (addressOperand_le nnn).trans (by decide), fun j hj => ?_, hs.mem_wf⟩
  · simp only [State.setPc_sp, State.setSp_sp]; omega
  · simp only [State.setPc_sp, State.setSp_sp, hsucc] at hj
    simp only [State.setPc_stack, State.setSp_stack, State.setStack_stack, Vector.getElem_set]
    split
    · exact hpc
    · exact hs.live j (by omega)

/-- Every instruction keeps the invariants where `PC` has been advanced from an address it was fetched at. -/
theorem Invariant.execTo (hs : Invariant s) (hpc : 2 ≤ s.pc.toNat ∧ s.pc.toNat ≤ 0x1000) (h : ExecTo s i t) :
    Invariant t := by
  cases h with
  | ret hsp => exact hs.pop hsp
  | call nnn hsp => exact hs.push hpc nnn hsp
  | jp nnn => exact hs.of_pc_le rfl rfl rfl rfl ((addressOperand_le nnn).trans (by decide))
  | seVxNn | sneVxNn | seVxVy | sneVxVy => exact hs.skip hpc.2 _
  | ldINnn nnn => exact ⟨hs.sp_le, addressOperand_le nnn, hs.pc_le, hs.live, hs.mem_wf⟩
  | trap | cls | ldVxNn | addVxNn | drw => exact hs.of_pc_le rfl rfl rfl rfl hs.pc_le

/-- The fetch advance gives a `PC` from 2 to 0x1000 and keeps the invariants. -/
theorem Invariant.advance (hs : Invariant s) (hpc : s.pc.toNat ≤ 0xFFE) :
    Invariant (advancePc (beginStep s)) ∧ 2 ≤ (advancePc (beginStep s)).pc.toNat ∧
      (advancePc (beginStep s)).pc.toNat ≤ 0x1000 := by
  rw [beginStep_eq, advancePc_eq, State.setPc_pc, State.setDirty_pc, pc_add_two_toNat (by omega)]
  refine ⟨hs.of_pc_le rfl rfl rfl rfl ?_, by omega, by omega⟩
  rw [State.setPc_pc, pc_add_two_toNat (by omega)]
  omega

theorem Invariant.step (hs : Invariant s) (h : step s = .next t) : Invariant t := by
  obtain ⟨-, hstep⟩ | ⟨-, -, hstep⟩ | ⟨-, hpc, w, -, -, hstep⟩ | ⟨-, hpc, w, i, -, -, hstep⟩ := step_cases s
  · cases hstep.symm.trans h
  · cases hstep.symm.trans h
    exact hs.of_pc_le rfl rfl rfl rfl hs.pc_le
  · cases hstep.symm.trans h
    obtain ⟨hs', -⟩ := hs.advance hpc
    exact hs'.of_pc_le rfl rfl rfl rfl hs'.pc_le
  · obtain ⟨hs', hpc'⟩ := hs.advance hpc
    exact hs'.execTo hpc' (execTo_of_exec (hstep.symm.trans h))

end

/-- Settles O27: the fetch trap keeps `PC`, every other step runs with `PC` advanced into 2 to 0x1000, which bounds the
address a call pushes and a skip's `PC`; a return loads a live entry. -/
theorem everyStepKeepsTheInvariants : Obligations.EveryStepKeepsTheInvariants := by
  unfold Obligations.EveryStepKeepsTheInvariants
  exact fun _ _ hs h => hs.step h

/-- Settles O26: the stack is empty and the memory lists nothing. -/
theorem resetStateMeetsTheInvariants : Obligations.ResetStateMeetsTheInvariants := by
  unfold Obligations.ResetStateMeetsTheInvariants
  exact ⟨by decide, by decide, by decide, fun _ hj => absurd hj (Nat.not_lt_zero _), reset_mem_wf⟩

end Sys2Proof.Machine
end

section
/-! A step by its stages (40_step_cycle.md), the trap it takes and the state a trap leaves (60_exceptions.md
section 1). -/

namespace Sys2Proof.Machine

section
variable {i : Instr} {s t : State} {w : Word}

/-! ### One rule per stage a step can end in -/

theorem step_of_trapped (h : Trapped s) : step s = .fault (.trapped s.trapCause s.trapInfo) := if_neg h

theorem not_trapped_of_step_next (h : step s = .next t) : s.trapCause = .none := by
  by_contra htrap
  cases (step_of_trapped htrap).symm.trans h

theorem step_of_fetch_outside (hc : s.trapCause = .none) (hpc : s.pc.toNat > 0xFFE) :
    step s = .next ((beginStep s).setTrap .fetchOutOfRange s.pc) := by
  have hw : fetchOpcode? (beginStep s) = none := (Memory.fetch?_eq_none_iff _ _).2 hpc
  rw [step, if_pos hc, runStep, hw]
  rfl

/-- Where the fetch gives an opcode, stages 2 and 3 run on it with `DIRTY` cleared and `PC` advanced. -/
theorem step_of_fetched (hc : s.trapCause = .none) (hw : fetchOpcode? s = some w) :
    step s = runOpcode w (advancePc (beginStep s)) := by
  have hw' : fetchOpcode? (beginStep s) = some w := hw
  rw [step, if_pos hc, runStep, hw']

theorem step_of_unrecognized (hc : s.trapCause = .none) (hw : fetchOpcode? s = some w)
    (hd : decode w = .unrecognized w) :
    step s = .next ((advancePc (beginStep s)).setTrap .unrecognizedOpcode w) := by
  rw [step_of_fetched hc hw, runOpcode, hd]
  rfl

theorem step_of_instruction (hc : s.trapCause = .none) (hw : fetchOpcode? s = some w)
    (hd : decode w = .instruction i) : step s = exec i (advancePc (beginStep s)) := by
  rw [step_of_fetched hc hw, runOpcode, hd]

theorem execTo_of_step (hw : fetchOpcode? s = some w) (hd : decode w = .instruction i) (h : step s = .next t) :
    ExecTo (advancePc (beginStep s)) i t :=
  execTo_of_exec ((step_of_instruction (not_trapped_of_step_next h) hw hd).symm.trans h)

/-- A core that has not trapped takes a step. -/
theorem exists_step_next (hc : s.trapCause = .none) : ∃ t, step s = .next t := by
  obtain ⟨htrap, -⟩ | ⟨-, -, h⟩ | ⟨-, -, w, -, -, h⟩ | ⟨-, -, w, i, -, -, h⟩ := step_cases s
  · exact absurd hc htrap
  · exact ⟨_, h⟩
  · exact ⟨_, h⟩
  · rw [h]
    exact exec_answers_next i _

/-! ### The state a trap leaves -/

/-- `DIRTY` false, and all but it, `PC` and the latch as before (60_exceptions.md R124, the spec's decision D4). -/
def TrapFrame (s t : State) : Prop :=
  t.dirty = false ∧ SameRegistersBut [] s t ∧ t.i = s.i ∧ SameStack s t ∧ SameDisplay s t ∧ SameMemory s t ∧
  SameHostInputs s t

theorem trapFrame_fetch (c : TrapCause) (w : Word) (s : State) : TrapFrame s ((beginStep s).setTrap c w) :=
  ⟨rfl, fun _ _ => rfl, rfl, ⟨rfl, rfl⟩, fun _ _ => rfl, fun _ => rfl, ⟨rfl, rfl, rfl⟩⟩

theorem trapFrame_advanced (c : TrapCause) (w : Word) (s : State) :
    TrapFrame s ((advancePc (beginStep s)).setTrap c w) :=
  ⟨rfl, fun _ _ => rfl, rfl, ⟨rfl, rfl⟩, fun _ _ => rfl, fun _ => rfl, ⟨rfl, rfl, rfl⟩⟩

/-- What a step that fetched no instruction leaves: one of the two traps before stage 3. -/
theorem step_of_no_instruction (hno : ∀ w i, fetchOpcode? s = some w → decode w ≠ .instruction i)
    (h : step s = .next t) :
    TrapFrame s t ∧ ((s.pc.toNat > 0xFFE ∧ t.pc = s.pc) ∨ (s.pc.toNat ≤ 0xFFE ∧ t.pc = s.pc + 2#16)) := by
  obtain ⟨-, hs⟩ | ⟨-, hpc, hs⟩ | ⟨-, hpc, w, -, -, hs⟩ | ⟨-, -, w, i, hw, hd, -⟩ := step_cases s
  · cases hs.symm.trans h
  · cases hs.symm.trans h
    exact ⟨trapFrame_fetch _ _ s, .inl ⟨hpc, rfl⟩⟩
  · cases hs.symm.trans h
    exact ⟨trapFrame_advanced _ _ s, .inr ⟨hpc, rfl⟩⟩
  · exact absurd hd (hno w i hw)

/-! ### The trap a step takes -/

theorem trapOf_advanced (i : Instr) (s : State) : trapOf i (advancePc (beginStep s)) = trapOf i s := rfl

theorem trapOf_eq_none_iff : trapOf i s = .none ↔
    (i = .ret → s.sp ≠ 0#8) ∧ (∀ nnn, i = .call nnn → s.sp.toNat < 16) ∧
    (∀ x y n, i = .drw x y n → s.i.toNat + n.toNat ≤ 4096) := by
  cases i <;> simp [trapOf]

theorem trapOf_eq_stackUnderflow_iff : trapOf i s = .stackUnderflow ↔ i = .ret ∧ s.sp = 0#8 := by
  cases i <;> simp [trapOf, ite_eq_iff]

theorem trapOf_eq_stackOverflow_iff :
    trapOf i s = .stackOverflow ↔ (∃ nnn, i = .call nnn) ∧ 16 ≤ s.sp.toNat := by
  cases i <;> simp [trapOf, ite_eq_iff]

theorem trapOf_eq_drawSourceOutOfRange_iff : trapOf i s = .drawSourceOutOfRange ↔
    ∃ x y n, i = .drw x y n ∧ 4096 < s.i.toNat + n.toNat := by
  cases i <;> simp [trapOf, ite_eq_iff]

/-- Stages 1 and 2 take their traps themselves: no instruction's rule names them. -/
theorem trapOf_ne (i : Instr) (s : State) : trapOf i s ≠ .fetchOutOfRange ∧ trapOf i s ≠ .unrecognizedOpcode := by
  cases i <;> simp [trapOf, ite_eq_iff]

/-- The cause after a step, by the stage that ended it. -/
theorem step_trapCause_cases (h : step s = .next t) :
    (s.pc.toNat > 0xFFE ∧ fetchOpcode? s = none ∧ t.trapCause = .fetchOutOfRange) ∨
    (s.pc.toNat ≤ 0xFFE ∧ (∃ w, fetchOpcode? s = some w ∧ decode w = .unrecognized w) ∧
      t.trapCause = .unrecognizedOpcode) ∨
    (s.pc.toNat ≤ 0xFFE ∧ ∃ w i, fetchOpcode? s = some w ∧ decode w = .instruction i ∧ t.trapCause = trapOf i s) := by
  obtain ⟨-, hs⟩ | ⟨-, hpc, hs⟩ | ⟨-, hpc, w, hw, hd, hs⟩ | ⟨hc, hpc, w, i, hw, hd, hs⟩ := step_cases s
  · cases hs.symm.trans h
  · cases hs.symm.trans h
    exact .inl ⟨hpc, (Memory.fetch?_eq_none_iff _ _).2 hpc, rfl⟩
  · cases hs.symm.trans h
    exact .inr (.inl ⟨hpc, ⟨w, hw, hd⟩, rfl⟩)
  · refine .inr (.inr ⟨hpc, w, i, hw, hd, ?_⟩)
    rw [← trapOf_advanced]
    obtain ⟨-, rfl⟩ | ⟨hnone, hcause, -⟩ := (execTo_of_exec (hs.symm.trans h)).trap_or_sameLatch
    · rfl
    · rw [hnone, hcause]
      exact hc

/-- A step that leaves a latched trap: the fetch trap with `PC` as its info, or any other with the fetched opcode. -/
theorem step_trapped_cases (h : step s = .next t) (htrap : Trapped t) :
    t = (beginStep s).setTrap .fetchOutOfRange s.pc ∨
    ∃ c w, c ≠ .fetchOutOfRange ∧ fetchOpcode? s = some w ∧ t = (advancePc (beginStep s)).setTrap c w := by
  obtain ⟨-, hs⟩ | ⟨-, -, hs⟩ | ⟨-, -, w, hw, -, hs⟩ | ⟨hc, -, w, i, hw, hd, hs⟩ := step_cases s
  · cases hs.symm.trans h
  · cases hs.symm.trans h
    exact .inl rfl
  · cases hs.symm.trans h
    exact .inr ⟨.unrecognizedOpcode, w, by decide, hw, rfl⟩
  · obtain ⟨-, ht⟩ | ⟨-, hcause, -⟩ := (execTo_of_exec (hs.symm.trans h)).trap_or_sameLatch
    · rw [encode_of_decode hd] at ht
      exact .inr ⟨_, w, (trapOf_ne i _).1, hw, ht⟩
    · exact absurd (hcause.trans hc) htrap

/-- A step returns `Ok` exactly where it gives a next state without a latched trap. -/
theorem stepReturn_eq_ok_iff : stepReturn s = some .ok ↔ ∃ t, step s = .next t ∧ t.trapCause = .none := by
  by_cases hc : s.trapCause = .none
  · obtain ⟨t, ht⟩ := exists_step_next hc
    simp [stepReturn, returnOf, ht]
  · simp [stepReturn, returnOf, step_of_trapped hc]

end

/-! ### The obligations -/

/-- Settles O14: a latched core's step is a fault, the other host operations do not name the latch, and `RESET` writes
it. -/
theorem onlyResetClearsALatchedTrap : Obligations.OnlyResetClearsALatchedTrap := by
  unfold Obligations.OnlyResetClearsALatchedTrap
  refine fun s htrap => ⟨fun t h => htrap (not_trapped_of_step_next h), fun a ha => ?_, not_not.2 rfl⟩
  cases a with
  | reset => exact absurd rfl ha
  | _ => exact ⟨rfl, rfl⟩

/-- Settles O15. -/
theorem stepRunsTheDecodedInstruction : Obligations.StepRunsTheDecodedInstruction := by
  unfold Obligations.StepRunsTheDecodedInstruction
  exact fun s hi lo i hc hhi hlo hd _ => step_of_instruction hc (Memory.fetch?_eq_some hhi hlo) hd

/-- Settles O16. -/
theorem unrecognizedOpcodeTrapsWithTheOpcode : Obligations.UnrecognizedOpcodeTrapsWithTheOpcode := by
  unfold Obligations.UnrecognizedOpcodeTrapsWithTheOpcode
  exact fun s hi lo hc hhi hlo hd => ⟨_, step_of_unrecognized hc (Memory.fetch?_eq_some hhi hlo) hd, rfl, rfl, rfl,
    trapFrame_advanced _ _ s⟩

/-- Settles O17. -/
theorem fetchOutsideMemoryTrapsWithThePc : Obligations.FetchOutsideMemoryTrapsWithThePc := by
  unfold Obligations.FetchOutsideMemoryTrapsWithThePc
  exact fun s hc hpc => ⟨_, step_of_fetch_outside hc hpc, rfl, rfl, rfl, trapFrame_fetch _ _ s⟩

/-- Settles O18: a latched core's step is the fault that carries the latch, and any other core takes a step. -/
theorem stepStopsExactlyWhenATrapIsLatched : Obligations.StepStopsExactlyWhenATrapIsLatched := by
  unfold Obligations.StepStopsExactlyWhenATrapIsLatched
  intro s
  by_cases hc : s.trapCause = .none
  · obtain ⟨t, ht⟩ := exists_step_next hc
    simp [ht, Trapped, hc]
  · have hs := step_of_trapped hc
    exact ⟨iff_of_true ⟨_, hs⟩ hc, fun _ => ⟨hs, by rw [stepReturn, hs]; rfl⟩, by simp [hs]⟩

/-- Settles O19: `Ok` is a step without a trap; the first two stages trap outside the first two limits, and the
instruction where its rule names a trap. -/
theorem stepReturnsOkExactlyWithinTheLimits : Obligations.StepReturnsOkExactlyWithinTheLimits := by
  unfold Obligations.StepReturnsOkExactlyWithinTheLimits
  intro s
  rw [stepReturn_eq_ok_iff]
  constructor
  · rintro ⟨t, h, hok⟩
    obtain ⟨-, -, hcause⟩ | ⟨-, -, hcause⟩ | ⟨hpc, w, i, hw, hd, hcause⟩ := step_trapCause_cases h
    · cases hcause.symm.trans hok
    · cases hcause.symm.trans hok
    · exact ⟨not_not.2 (not_trapped_of_step_next h), hpc, w, i, hw, hd, trapOf_eq_none_iff.1 (hcause.symm.trans hok)⟩
  · rintro ⟨hc, -, w, i, hw, hd, hlimits⟩
    obtain ⟨t, h⟩ := exists_step_next (not_not.1 hc)
    obtain ⟨htrap, -⟩ | ⟨-, hcause, -⟩ := (execTo_of_step hw hd h).trap_or_sameLatch
    · exact absurd (trapOf_eq_none_iff.2 hlimits) htrap
    · exact ⟨t, h, hcause.trans (not_not.1 hc)⟩

/-- Settles O20. -/
theorem trappingStepLeavesTheTabulatedState : Obligations.TrappingStepLeavesTheTabulatedState := by
  unfold Obligations.TrappingStepLeavesTheTabulatedState
  intro s t h htrap
  obtain rfl | ⟨c, w, hne, hw, rfl⟩ := step_trapped_cases h htrap
  · obtain ⟨hdirty, hv, hi, hstack, hdisp, hmem, hin⟩ := trapFrame_fetch .fetchOutOfRange s.pc s
    exact ⟨hdirty, hv, hi, hstack, hdisp, hmem, hin, fun _ => ⟨rfl, rfl⟩, fun hc => absurd rfl hc⟩
  · obtain ⟨hdirty, hv, hi, hstack, hdisp, hmem, hin⟩ := trapFrame_advanced c w s
    exact ⟨hdirty, hv, hi, hstack, hdisp, hmem, hin, fun hc => absurd hc hne, fun _ => ⟨rfl, hw⟩⟩

/-- Settles O47: the stage that ended the step gives the cause, and each tabulated case belongs to one stage. -/
theorem stepsTrapExactlyInTheTabulatedCases : Obligations.StepsTrapExactlyInTheTabulatedCases := by
  unfold Obligations.StepsTrapExactlyInTheTabulatedCases
  intro s t h
  obtain ⟨hpc, hw, hcause⟩ | ⟨hpc, ⟨w, hw, hd⟩, hcause⟩ | ⟨hpc, w, i, hw, hd, hcause⟩ := step_trapCause_cases h
  · simp [hcause, hw, hpc]
  · simp [hcause, hw, hd, hpc]
  · obtain ⟨hfetch, hunrec⟩ := trapOf_ne i s
    simp [hcause, hw, hd, hpc, hfetch, hunrec, trapOf_eq_stackUnderflow_iff, trapOf_eq_stackOverflow_iff,
      trapOf_eq_drawSourceOutOfRange_iff]

end Sys2Proof.Machine
end

section
/-! The memory as a list in canonical form, `RESET`, `LOAD` and the host's ports (20_memory.md, 10_state.md section 7,
70_reset_and_hazards.md section 1, 60_exceptions.md section 3). -/

namespace Sys2Proof.Machine

/-! ### Memories are determined by their reads -/

/-- An address outside the memory is not listed. -/
theorem Memory.cell_of_memSize_le {m : Memory} (hm : m.wf) {a : Nat} (ha : Config.memSize ≤ a) :
    m.cell a = resetByte a := by
  induction m with
  | nil => rfl
  | cons q m ih =>
    obtain ⟨-, ⟨hq, -⟩, hm'⟩ := Memory.wf_cons.1 hm
    rw [Memory.cell, if_neg (by omega), ih hm']

theorem Memory.cell_eq_of_read?_eq {m n : Memory} (hm : m.wf) (hn : n.wf) (h : ∀ a, m.read? a = n.read? a) (a : Nat) :
    m.cell a = n.cell a := by
  by_cases ha : a < Config.memSize
  · have hread := h a
    rw [Memory.read?, Memory.read?, if_pos ha, if_pos ha] at hread
    exact Option.some.inj hread
  · rw [Memory.cell_of_memSize_le hm (Nat.not_lt.1 ha), Memory.cell_of_memSize_le hn (Nat.not_lt.1 ha)]

/-- The first listed cell differs from its reset contents, which a memory that lists only higher addresses holds
there. -/
theorem Memory.cell_head_ne {q : Host.Cell} {m n : Memory} (hm : Memory.wf (q :: m)) (hn : ∀ p ∈ n, q.1 < p.1) :
    Memory.cell (q :: m) q.1 ≠ n.cell q.1 := by
  obtain ⟨-, ⟨-, hq⟩, -⟩ := Memory.wf_cons.1 hm
  rw [Memory.cell_of_lt hn, Memory.cell, if_pos rfl]
  exact hq

/-- A lower first address would be a cell that only one of the two lists. -/
theorem Memory.head_le_of_cell_eq {p q : Host.Cell} {m n : Memory} (hm : Memory.wf (p :: m)) (hn : Memory.wf (q :: n))
    (h : ∀ a, Memory.cell (p :: m) a = Memory.cell (q :: n) a) : q.1 ≤ p.1 := by
  by_contra hlt
  obtain ⟨hmin, -, -⟩ := Memory.wf_cons.1 hn
  refine Memory.cell_head_ne hm (fun r hr => ?_) (h p.1)
  obtain rfl | hr := List.mem_cons.1 hr
  · exact Nat.not_le.1 hlt
  · exact (Nat.not_le.1 hlt).trans (hmin r hr)

/-- The canonical form is unique: both lists begin with the lowest cell that differs from its reset contents. -/
theorem Memory.eq_of_cell_eq {m n : Memory} (hm : m.wf) (hn : n.wf) (h : ∀ a, m.cell a = n.cell a) : m = n := by
  induction m generalizing n with
  | nil =>
    cases n with
    | nil => rfl
    | cons q n => exact absurd (h q.1).symm (Memory.cell_head_ne hn (by simp))
  | cons p m ih =>
    cases n with
    | nil => exact absurd (h p.1) (Memory.cell_head_ne hm (by simp))
    | cons q n =>
      have hkey : p.1 = q.1 := Nat.le_antisymm (Memory.head_le_of_cell_eq hn hm fun a => (h a).symm)
        (Memory.head_le_of_cell_eq hm hn h)
      obtain ⟨hpm, -, hm'⟩ := Memory.wf_cons.1 hm
      obtain ⟨hqn, -, hn'⟩ := Memory.wf_cons.1 hn
      have hbyte : p.2 = q.2 := by
        have hcell := h p.1
        rwa [Memory.cell, Memory.cell, if_pos rfl, if_pos hkey] at hcell
      obtain rfl : p = q := Prod.ext hkey hbyte
      refine congrArg _ (ih hm' hn' fun a => ?_)
      by_cases ha : a = p.1
      · subst ha
        rw [Memory.cell_of_lt hpm, Memory.cell_of_lt hqn]
      · have hcell := h a
        rwa [Memory.cell, Memory.cell, if_neg ha, if_neg ha] at hcell

theorem Memory.eq_of_read?_eq {m n : Memory} (hm : m.wf) (hn : n.wf) (h : ∀ a, m.read? a = n.read? a) : m = n :=
  Memory.eq_of_cell_eq hm hn (Memory.cell_eq_of_read?_eq hm hn h)

/-- Settles O8. -/
theorem memoriesThatReadEquallyAreEqual : Obligations.MemoriesThatReadEquallyAreEqual := by
  unfold Obligations.MemoriesThatReadEquallyAreEqual
  exact fun _ _ => Memory.eq_of_read?_eq

/-! ### The fetch -/

theorem opcodeOfBytes_toNat (hi lo : Byte) : (opcodeOfBytes hi lo).toNat = hi.toNat * 256 + lo.toNat := by
  have hlo : lo.toNat < 2 ^ 8 := lo.isLt
  rw [opcodeOfBytes, BitVec.toNat_append, ← Nat.shiftLeft_add_eq_or_of_lt hlo, Nat.shiftLeft_eq]

/-- Settles O7: up to 0xFFE both addresses lie inside the memory. -/
theorem fetchCombinesTwoBytesBigEndian : Obligations.FetchCombinesTwoBytesBigEndian := by
  unfold Obligations.FetchCombinesTwoBytesBigEndian
  intro s hpc
  have hhi := Memory.read?_eq_some (m := s.mem) (a := s.pc.toNat) (by omega)
  have hlo := Memory.read?_eq_some (m := s.mem) (a := s.pc.toNat + 1) (by omega)
  exact ⟨_, _, _, hhi, hlo, Memory.fetch?_eq_some hhi hlo, opcodeOfBytes_toNat _ _⟩

/-! ### The state after reset -/

theorem font_length : font.length = 80 := rfl

theorem resetByte_font {k : Nat} (hk : k < 80) : some (resetByte (0x050 + k)) = font[k]? := by
  have hk' : k < font.length := hk
  have hin : Config.fontBase ≤ 0x050 + k ∧ 0x050 + k < Config.fontBase + Config.fontBytes := by
    simp only [Config.fontBase, Config.fontBytes]
    omega
  rw [resetByte, if_pos hin, List.getElem?_eq_getElem hk', Config.fontBase, Nat.add_sub_cancel_left,
    List.getD_eq_getElem _ _ hk']

theorem resetByte_outside_font {a : Nat} (ha : a < 0x050 ∨ 0x0A0 ≤ a) : resetByte a = 0#8 :=
  if_neg (by simp only [Config.fontBase, Config.fontBytes]; omega)

/-- Settles O9: an unlisted cell holds a font byte from 0x050 to 0x09F and 0 elsewhere, and nothing is listed. -/
theorem resetLeavesTheTabulatedValues : Obligations.ResetLeavesTheTabulatedValues := by
  unfold Obligations.ResetLeavesTheTabulatedValues
  have hread : ∀ a : Nat, a < 4096 → State.reset.mem.read? a = some (resetByte a) := fun a ha => if_pos ha
  refine ⟨by decide, rfl, rfl, rfl, by decide, rfl, rfl, by decide, fun a ha => ?_, fun k hk => ?_, fun a ha ha' => ?_,
    Display.cell_clear, rfl, rfl, rfl⟩
  · rw [hread a (by omega), resetByte_outside_font (.inl ha)]
  · rw [hread _ (by omega), resetByte_font hk]
  · rw [hread a ha', resetByte_outside_font (.inr ha)]

/-! ### `RESET` -/

/-- The zero fill covers every address. -/
theorem Memory.read?_zeroFill {m : Memory} (hm : m.wf) (a : Nat) :
    (m.writeBytes 0 (List.replicate Config.memSize 0#8)).read? a = if a < 4096 then some 0#8 else none := by
  rw [Memory.read?_writeBytes hm _ _ _ (by rw [List.length_replicate, Nat.zero_add]), if_pos (Nat.zero_le a),
    Nat.sub_zero, List.getElem?_replicate, Config.memSize]
  by_cases ha : a < 4096
  · rw [if_pos ha, Option.some_or]
  · rw [if_neg ha, Option.none_or, Memory.read?_eq_none (Nat.not_lt.1 ha)]

/-- The font over the zero fill is the reset contents, whatever the memory was. -/
theorem Memory.read?_font_zeroFill {m : Memory} (hm : m.wf) (a : Nat) :
    ((m.writeBytes 0 (List.replicate Config.memSize 0#8)).writeBytes Config.fontBase font).read? a =
      Memory.read? [] a := by
  have hzero := Memory.writeBytes_wf 0 (List.replicate Config.memSize 0#8) hm
  rw [Memory.read?_writeBytes hzero _ _ _ (by rw [font_length]; decide), Memory.read?_zeroFill hm, Memory.read?_reset,
    Config.fontBase]
  by_cases hfont : 0x050 ≤ a ∧ a < 0x0A0
  · obtain ⟨k, rfl⟩ := Nat.exists_eq_add_of_le hfont.1
    rw [if_pos hfont.1, Nat.add_sub_cancel_left, ← resetByte_font (by omega), Option.some_or, if_pos (by omega)]
  · rw [resetByte_outside_font (by omega)]
    by_cases hlow : 0x050 ≤ a
    · rw [if_pos hlow, List.getElem?_eq_none (by rw [font_length]; omega), Option.none_or]
    · rw [if_neg hlow]

theorem hostReset_eq_reset {s : State} (hs : s.mem.wf) : hostReset s = State.reset := by
  have hwf := Memory.writeBytes_wf Config.fontBase font
    (Memory.writeBytes_wf 0 (List.replicate Config.memSize 0#8) hs)
  rw [hostReset, Memory.eq_of_read?_eq hwf Memory.wf_nil (Memory.read?_font_zeroFill hs)]
  rfl

/-- Settles O10. -/
theorem resetOperationLeavesTheResetState : Obligations.ResetOperationLeavesTheResetState := by
  unfold Obligations.ResetOperationLeavesTheResetState
  exact fun _ hs => hostReset_eq_reset hs

/-! ### `LOAD` -/

/-- What a read gives after `LOAD`: the image, cut at 3584 bytes (the spec's decision D13), over the memory before. -/
theorem read?_hostLoad {s : State} (hs : s.mem.wf) (img : List Byte) (a : Nat) :
    (hostLoad img s).mem.read? a =
      if 0x200 ≤ a ∧ a < 0x200 + min img.length 3584 then img[a - 0x200]? else s.mem.read? a := by
  show (Memory.writeBytes s.mem 0x200 (img.take 3584)).read? a = _
  have hlen : (img.take 3584).length = min img.length 3584 := by rw [List.length_take, Nat.min_comm]
  rw [Memory.read?_writeBytes hs _ _ _ (by rw [hlen, Config.memSize]; omega)]
  by_cases hlow : 0x200 ≤ a
  · by_cases hin : a < 0x200 + min img.length 3584
    · have hk : a - 0x200 < img.length := by omega
      simp [hlow, hin, List.getElem?_take_of_lt (show a - 0x200 < 3584 by omega), List.getElem?_eq_getElem hk]
    · simp [hlow, hin, List.getElem?_eq_none (l := img.take 3584) (i := a - 0x200) (by omega)]
  · simp [hlow]

theorem hostLoad_frame (img : List Byte) (s : State) :
    SameRegistersBut [] s (hostLoad img s) ∧ (hostLoad img s).i = s.i ∧ SameStack s (hostLoad img s) ∧
    SameDisplay s (hostLoad img s) ∧ (hostLoad img s).dirty = s.dirty ∧ SameHostInputs s (hostLoad img s) ∧
    SameLatch s (hostLoad img s) :=
  ⟨fun _ _ => rfl, rfl, ⟨rfl, rfl⟩, fun _ _ => rfl, rfl, ⟨rfl, rfl, rfl⟩, ⟨rfl, rfl⟩⟩

/-- Settles O11. -/
theorem loadWritesTheImageAndPcOnly : Obligations.LoadWritesTheImageAndPcOnly := by
  unfold Obligations.LoadWritesTheImageAndPcOnly
  refine fun img s hs => ⟨rfl, fun k hk => ?_, fun a ha => ?_, hostLoad_frame img s⟩
  · rw [read?_hostLoad hs, if_pos (by omega), Nat.add_sub_cancel_left]
  · rw [read?_hostLoad hs, if_neg ha]

/-- Settles O12: the image's first two bytes stand at `PC` = 0x200 and behind it. -/
theorem loadedImageIsFetchedHighByteFirst : Obligations.LoadedImageIsFetchedHighByteFirst := by
  unfold Obligations.LoadedImageIsFetchedHighByteFirst
  intro hi lo rest s hs
  have hread : ∀ k < 2, (hostLoad (hi :: lo :: rest) s).mem.read? (0x200 + k) = (hi :: lo :: rest)[k]? := by
    intro k hk
    rw [read?_hostLoad hs, if_pos (by simp only [List.length_cons]; omega), Nat.add_sub_cancel_left]
  exact Memory.fetch?_eq_some (hread 0 (by decide)) (hread 1 (by decide))

/-! ### The ports -/

theorem hostReadLinear_rowMajor (x : Fin 64) (y : Fin 32) (h : y.val * 64 + x.val < 2048) (s : State) :
    hostReadLinear ⟨y.val * 64 + x.val, h⟩ s = Display.cell s.disp x y := by
  have hx : (y.val * 64 + x.val) % 64 = x.val := by omega
  have hy : (y.val * 64 + x.val) / 64 = y.val := by omega
  simp only [hostReadLinear, hostReadCell, hx, hy]

/-- Settles O13: each port is a write of one field. -/
theorem hostPortsWriteOnlyTheirOwnState : Obligations.HostPortsWriteOnlyTheirOwnState := by
  unfold Obligations.HostPortsWriteOnlyTheirOwnState
  exact ⟨fun _ _ _ => rfl, fun _ _ => ⟨rfl, rfl⟩, fun _ _ => ⟨rfl, rfl⟩, hostReadLinear_rowMajor⟩

end Sys2Proof.Machine
end

section
/-! The invariants under the host's operations, and so in every reachable state. -/

namespace Sys2Proof.Machine

theorem reset_invariant : Invariant State.reset := resetStateMeetsTheInvariants

theorem Invariant.hostAct {s : State} (hs : Invariant s) (a : HostAction) : Invariant (hostAct a s) := by
  cases a with
  | reset =>
    rw [Machine.hostAct, hostReset_eq_reset hs.mem_wf]
    exact reset_invariant
  | load img => exact
    ⟨hs.sp_le, hs.i_le, (by decide : (0x200#16).toNat ≤ 0x1002), hs.live, Memory.writeBytes_wf _ _ hs.mem_wf⟩
  | setKey | setDelay | setSound => exact hs.of_pc_le rfl rfl rfl rfl hs.pc_le

/-- Settles O28: `RESET` gives the reset state, `LOAD` writes memory and a legal `PC`, and the ports write nothing that
the invariants speak of. -/
theorem everyHostOperationKeepsTheInvariants : Obligations.EveryHostOperationKeepsTheInvariants := by
  unfold Obligations.EveryHostOperationKeepsTheInvariants
  exact fun a _ hs => hs.hostAct a

/-- Settles O29, by induction on how the state was reached. -/
theorem reachableStatesMeetTheInvariants : Obligations.ReachableStatesMeetTheInvariants := by
  unfold Obligations.ReachableStatesMeetTheInvariants
  intro s h
  induction h with
  | reset => exact reset_invariant
  | step _ hstep ih => exact ih.step hstep
  | host a _ ih => exact ih.hostAct a

end Sys2Proof.Machine
end

section
/-! The frame of a step (40_step_cycle.md section 2): what each instruction's rule names, part of the state by part. -/

namespace Sys2Proof.Machine

section
variable {i : Instr} {s t : State}

/-! ### One part of the state at a time -/

theorem ExecTo.readV_ne {r : Reg} (h : ExecTo s i t) (hne : t.readV r ≠ s.readV r) :
    (∃ nn, i = .ldVxNn r nn) ∨ (∃ nn, i = .addVxNn r nn) ∨ (r = regVF ∧ ∃ x y n, i = .drw x y n) := by
  have hset : ∀ x b, (s.setV x b).readV r ≠ s.readV r → r = x := fun x b hne' =>
    by_contra fun hx => hne' (State.readV_setV_of_ne s x r b hx)
  cases h with
  | ldVxNn x nn => exact .inl ⟨nn, hset x nn hne ▸ rfl⟩
  | addVxNn x nn => exact .inr (.inl ⟨nn, hset x _ hne ▸ rfl⟩)
  | drw x y n => exact .inr (.inr ⟨hset regVF _ hne, x, y, n, rfl⟩)
  | _ => exact absurd rfl hne

theorem ExecTo.i_ne (h : ExecTo s i t) (hne : t.i ≠ s.i) : ∃ nnn, i = .ldINnn nnn := by
  cases h with
  | ldINnn nnn => exact ⟨nnn, rfl⟩
  | _ => exact absurd rfl hne

theorem ExecTo.sp_ne (h : ExecTo s i t) (hne : t.sp ≠ s.sp) : i = .ret ∨ ∃ nnn, i = .call nnn := by
  cases h with
  | ret => exact .inl rfl
  | call nnn => exact .inr ⟨nnn, rfl⟩
  | _ => exact absurd rfl hne

theorem ExecTo.stack_ne {j : Fin 16} (h : ExecTo s i t) (hne : t.stack[j.val] ≠ s.stack[j.val]) :
    j.val = s.sp.toNat ∧ ∃ nnn, i = .call nnn := by
  cases h with
  | call nnn hsp =>
    refine ⟨by_contra fun hj => hne ?_, nnn, rfl⟩
    exact Vector.getElem_set_ne hsp j.isLt (Ne.symm hj)
  | _ => exact absurd rfl hne

theorem ExecTo.disp_ne {cx : Fin 64} {cy : Fin 32} (h : ExecTo s i t)
    (hne : Display.cell t.disp cx cy ≠ Display.cell s.disp cx cy) :
    i = .cls ∨ ∃ x y n, i = .drw x y n ∧ drawBit x y n s cx cy = true := by
  cases h with
  | cls => exact .inl rfl
  | drw x y n d hit _ hcell =>
    refine .inr ⟨x, y, n, rfl, by_contra fun hbit => hne ?_⟩
    rw [State.setDirty_disp, State.setDisp_disp, hcell, Bool.eq_false_of_not_eq_true hbit, Bool.xor_false]
  | _ => exact absurd rfl hne

theorem ExecTo.dirty_ne (h : ExecTo s i t) (hne : t.dirty ≠ s.dirty) : i = .cls ∨ ∃ x y n, i = .drw x y n := by
  cases h with
  | cls => exact .inl rfl
  | drw x y n => exact .inr ⟨x, y, n, rfl⟩
  | _ => exact absurd rfl hne

/-- `PC` differs from its advanced value only by a transfer of control whose condition holds. -/
theorem ExecTo.pc_ne (h : ExecTo s i t) (hne : t.pc ≠ s.pc) :
    i = .ret ∨ (∃ nnn, i = .jp nnn) ∨ (∃ nnn, i = .call nnn) ∨
    (∃ x nn, i = .seVxNn x nn ∧ s.readV x = nn) ∨ (∃ x nn, i = .sneVxNn x nn ∧ s.readV x ≠ nn) ∨
    (∃ x y, i = .seVxVy x y ∧ s.readV x = s.readV y) ∨ (∃ x y, i = .sneVxVy x y ∧ s.readV x ≠ s.readV y) := by
  have hskip : ∀ (c : Prop) [Decidable c], (if c then s.pc + 2#16 else s.pc) ≠ s.pc → c := fun c _ hne' =>
    by_contra fun hc => hne' (if_neg hc)
  cases h with
  | ret => exact .inl rfl
  | jp nnn => exact .inr (.inl ⟨nnn, rfl⟩)
  | call nnn => exact .inr (.inr (.inl ⟨nnn, rfl⟩))
  | seVxNn x nn => exact .inr (.inr (.inr (.inl ⟨x, nn, rfl, hskip _ hne⟩)))
  | sneVxNn x nn => exact .inr (.inr (.inr (.inr (.inl ⟨x, nn, rfl, hskip _ hne⟩))))
  | seVxVy x y => exact .inr (.inr (.inr (.inr (.inr (.inl ⟨x, y, rfl, hskip _ hne⟩)))))
  | sneVxVy x y => exact .inr (.inr (.inr (.inr (.inr (.inr ⟨x, y, rfl, hskip _ hne⟩)))))
  | _ => exact absurd rfl hne

/-- The latch changes only by an instruction whose rule names a trap. -/
theorem ExecTo.latch_ne (h : ExecTo s i t) (hne : ¬ SameLatch s t) :
    i = .ret ∨ (∃ nnn, i = .call nnn) ∨ ∃ x y n, i = .drw x y n := by
  obtain ⟨htrap, -⟩ | ⟨-, hsame⟩ := h.trap_or_sameLatch
  · cases i with
    | ret => exact .inl rfl
    | call nnn => exact .inr (.inl ⟨nnn, rfl⟩)
    | drw x y n => exact .inr (.inr ⟨x, y, n, rfl⟩)
    | _ => exact absurd rfl htrap
  · exact absurd hsame hne

/-! ### Every step -/

/-- Memory, timers and keys are never written, and the latch only where the step leaves a trap. -/
theorem step_keeps (h : step s = .next t) :
    t.mem = s.mem ∧ SameHostInputs s t ∧ (¬ Trapped t → SameLatch s t) := by
  obtain ⟨-, hs⟩ | ⟨-, -, hs⟩ | ⟨-, -, w, -, -, hs⟩ | ⟨-, -, w, i, -, -, hs⟩ := step_cases s
  · cases hs.symm.trans h
  · cases hs.symm.trans h
    exact ⟨rfl, ⟨rfl, rfl, rfl⟩, fun hok => absurd (by simp [Trapped]) hok⟩
  · cases hs.symm.trans h
    exact ⟨rfl, ⟨rfl, rfl, rfl⟩, fun hok => absurd (by simp [Trapped]) hok⟩
  · have hexec := execTo_of_exec (hs.symm.trans h)
    refine ⟨hexec.keeps_mem, hexec.sameHostInputs, fun hok => ?_⟩
    obtain ⟨htrap, rfl⟩ | ⟨-, hsame⟩ := hexec.trap_or_sameLatch
    · exact absurd htrap hok
    · exact hsame

end

/-- Settles O21: an instruction runs on the state with `DIRTY` false and `PC` advanced, and writes the parts its rule
names; a step without an instruction ends in a trap. -/
theorem stepWritesOnlyWhatTheInstructionNames : Obligations.StepWritesOnlyWhatTheInstructionNames := by
  unfold Obligations.StepWritesOnlyWhatTheInstructionNames
  intro s t h
  obtain ⟨hmem, hin, hlatch⟩ := step_keeps h
  refine ⟨fun a => by rw [hmem], hin, hlatch, fun w i hw hd => ?_, fun hno => ?_⟩
  · have hexec := execTo_of_step hw hd h
    exact ⟨fun _ => hexec.readV_ne, hexec.i_ne, hexec.sp_ne, fun _ => hexec.stack_ne, fun _ _ => hexec.disp_ne,
      fun hdirty => hexec.dirty_ne (by simp [hdirty]), hexec.pc_ne, hexec.latch_ne⟩
  · obtain ⟨⟨hdirty, hv, hi, hstack, hdisp, -, -⟩, hpc⟩ := step_of_no_instruction hno h
    refine ⟨hv, hi, hstack, hdisp, hdirty, fun hout => ?_, fun hin => ?_⟩
    · obtain ⟨-, hpc⟩ | ⟨hin, -⟩ := hpc
      · exact hpc
      · omega
    · obtain ⟨hout, -⟩ | ⟨-, hpc⟩ := hpc
      · omega
      · exact hpc

end Sys2Proof.Machine
end

section
/-! Call and return (41_control_flow.md): what each branch changes and keeps, the two together, and the stack's
capacity. -/

namespace Sys2Proof.Machine

/-! ### The trap info and the frames -/

theorem encode_call_toNat (nnn : Addr12) : (encode (.call nnn)).toNat = 0x2000 + nnn.toNat := packA_toNat 0x2#4 nnn

/-- The frame of a trap: only the latch may differ. -/
theorem setTrap_frame (c : TrapCause) (w : Word) (s : State) :
    (s.setTrap c w).pc = s.pc ∧ SameStack s (s.setTrap c w) ∧ SameRegistersBut [] s (s.setTrap c w) ∧
    (s.setTrap c w).i = s.i ∧ SameDisplay s (s.setTrap c w) ∧ (s.setTrap c w).dirty = s.dirty ∧
    SameMemory s (s.setTrap c w) ∧ SameHostInputs s (s.setTrap c w) :=
  ⟨rfl, ⟨rfl, rfl⟩, fun _ _ => rfl, rfl, fun _ _ => rfl, rfl, fun _ => rfl, ⟨rfl, rfl, rfl⟩⟩

/-- The frame of a pop into `PC`: `SP` and `PC` may differ, and no entry. -/
theorem setSp_setPc_frame (b : Byte) (w : Word) (s : State) :
    ((s.setSp b).setPc w).stack = s.stack ∧ SameRegistersBut [] s ((s.setSp b).setPc w) ∧
    ((s.setSp b).setPc w).i = s.i ∧ SameDisplay s ((s.setSp b).setPc w) ∧ ((s.setSp b).setPc w).dirty = s.dirty ∧
    SameMemory s ((s.setSp b).setPc w) ∧ SameHostInputs s ((s.setSp b).setPc w) ∧
    SameLatch s ((s.setSp b).setPc w) :=
  ⟨rfl, fun _ _ => rfl, rfl, fun _ _ => rfl, rfl, fun _ => rfl, ⟨rfl, rfl, rfl⟩, ⟨rfl, rfl⟩⟩

theorem setStack_entry_self (j : Fin 16) (w : Word) (s : State) : (s.setStack j w).stack[j.val] = w :=
  Vector.getElem_set_self j.isLt

theorem setStack_entry_of_ne {j k : Fin 16} (h : k.val ≠ j.val) (w : Word) (s : State) :
    (s.setStack j w).stack[k.val] = s.stack[k.val] :=
  Vector.getElem_set_ne j.isLt k.isLt h.symm

/-! ### The obligations of one instruction -/

/-- Settles O31: the push writes the entry at `SP`, and a transfer to the target keeps all the rest. -/
theorem callPushesThePcAndJumps : Obligations.CallPushesThePcAndJumps := by
  unfold Obligations.CallPushesThePcAndJumps
  intro nnn s h
  obtain ⟨-, hframe⟩ := setSp_setPc_frame (s.sp + 1#8) (addressOperand nnn) (s.setStack ⟨s.sp.toNat, h⟩ s.pc)
  exact ⟨_, exec_call_of_lt nnn h, addressOperand_toNat nnn, sp_succ_toNat h, setStack_entry_self ⟨_, h⟩ s.pc s,
    fun _ hj => setStack_entry_of_ne hj s.pc s, hframe⟩

/-- Settles O32. -/
theorem callOnAFullStackTraps : Obligations.CallOnAFullStackTraps := by
  unfold Obligations.CallOnAFullStackTraps
  exact fun nnn s h => ⟨_, exec_call_of_full nnn h, rfl, encode_call_toNat nnn, setTrap_frame _ _ s⟩

/-- Settles O33: with `SP` at most 16 the entry below it is one of the array's. -/
theorem returnPopsTheLastEntry : Obligations.ReturnPopsTheLastEntry := by
  unfold Obligations.ReturnPopsTheLastEntry
  intro s h
  have hpred := sp_pred_toNat h
  refine ⟨_, exec_ret_of_ne h, hpred, fun j hj => ?_, setSp_setPc_frame _ _ s⟩
  have hjv : (s.sp - 1#8).toNat = j.val := by omega
  rw [State.setPc_pc, stackEntry_of_lt (hjv ▸ j.isLt)]
  simp only [hjv]

/-- Settles O34. -/
theorem returnOnAnEmptyStackTraps : Obligations.ReturnOnAnEmptyStackTraps := by
  unfold Obligations.ReturnOnAnEmptyStackTraps
  exact fun s h => ⟨_, exec_ret_of_empty h, rfl, rfl, setTrap_frame _ _ s⟩

/-! ### A call and the return from it -/

/-- Settles O35: the call's push and the return's pop put together; the entry popped is the one pushed, and `SP` is back
where it was. -/
theorem callThenReturnRoundTrip : Obligations.CallThenReturnRoundTrip := by
  unfold Obligations.CallThenReturnRoundTrip
  intro s t nnn h _ hw hs hw'
  have hc := not_trapped_of_step_next hs
  obtain ⟨t', hcall, -, htsp, htop, htothers, htv, hti, htdisp, -, htmem, ⟨htdt, htst, htkeys⟩, htcause, -⟩ :=
    callPushesThePcAndJumps nnn (advancePc (beginStep s)) h
  obtain rfl : t' = t :=
    Host.Outcome.next.inj (hcall.symm.trans ((step_of_instruction hc hw (decode_encode _)).symm.trans hs))
  have hne : t'.sp ≠ 0#8 := fun h0 => Nat.zero_ne_add_one _ (h0 ▸ htsp)
  obtain ⟨u, hret, husp, hupc, hustack, huv, hui, hudisp, -, humem, ⟨hudt, hust, hukeys⟩, hucause, -⟩ :=
    returnPopsTheLastEntry (advancePc (beginStep t')) hne
  refine ⟨u, (step_of_instruction (htcause.trans hc) hw' (decode_encode .ret)).trans hret, fun htrap => htrap ?_, ?_,
    BitVec.eq_of_toNat_eq (Nat.succ.inj (husp.trans htsp)), ?_, fun j hj => ?_, fun r hr => (huv r hr).trans (htv r hr),
    hui.trans hti, fun x y => (hudisp x y).trans (htdisp x y), fun a => (humem a).trans (htmem a),
    hudt.trans htdt, hust.trans htst, hukeys.trans htkeys⟩
  · exact hucause.trans (htcause.trans hc)
  · exact (hupc ⟨s.sp.toNat, h⟩ htsp.symm).trans htop
  · simp only [hustack]
    exact htop
  · simp only [hustack]
    exact htothers j hj

/-! ### Sixteen pushes -/

theorem push?_of_lt {s : State} (w : Word) (h : s.sp.toNat < 16) :
    push? w s = some ((s.setStack ⟨s.sp.toNat, h⟩ w).setSp (s.sp + 1#8)) := dif_pos h

theorem push?_of_full {s : State} (w : Word) (h : 16 ≤ s.sp.toNat) : push? w s = none := dif_neg (Nat.not_lt.2 h)

/-- Pushing a list that fits: `SP` counts it, the entries below are kept and the list stands above them in order. -/
theorem foldlM_push?_of_fits (ws : List Word) {s : State} (h : s.sp.toNat + ws.length ≤ 16) :
    ∃ t : State, ws.foldlM (fun u v => push? v u) s = some t ∧ t.sp.toNat = s.sp.toNat + ws.length ∧
      (∀ j : Fin 16, j.val < s.sp.toNat → t.stack[j.val] = s.stack[j.val]) ∧
      ∀ (j : Fin 16) (k : Nat) (hk : k < ws.length), j.val = s.sp.toNat + k → t.stack[j.val] = ws[k] := by
  induction ws generalizing s with
  | nil => exact ⟨s, rfl, rfl, fun _ _ => rfl, fun _ _ hk => absurd hk (Nat.not_lt_zero _)⟩
  | cons w ws ih =>
    rw [List.length_cons] at h
    have hsp : s.sp.toNat < 16 := by omega
    have hsucc := sp_succ_toNat hsp
    obtain ⟨t, hfold, hcount, hkept, hnew⟩ := ih (s := (s.setStack ⟨s.sp.toNat, hsp⟩ w).setSp (s.sp + 1#8))
      (by rw [State.setSp_sp, hsucc]; omega)
    rw [State.setSp_sp, hsucc] at hcount hkept hnew
    refine ⟨t, ?_, by rw [hcount, List.length_cons]; omega, fun j hj => ?_, fun j k hk hj => ?_⟩
    · rw [List.foldlM_cons, push?_of_lt w hsp]
      exact hfold
    · rw [hkept j (by omega)]
      exact setStack_entry_of_ne hj.ne w s
    · cases k with
      | zero =>
        obtain rfl : j = ⟨s.sp.toNat, hsp⟩ := Fin.ext hj
        rw [hkept _ (Nat.lt_succ_self _)]
        exact setStack_entry_self _ w s
      | succ k => exact hnew j k (Nat.lt_of_succ_lt_succ hk) (by omega)

/-- Settles O36: the list fits from `SP` 0 on, and sixteen leave `SP` at 16. -/
theorem sixteenPushesSucceedTheSeventeenthFails : Obligations.SixteenPushesSucceedTheSeventeenthFails := by
  unfold Obligations.SixteenPushesSucceedTheSeventeenthFails
  intro ws w s hs
  have hzero : s.sp.toNat = 0 := by rw [hs]; rfl
  refine ⟨fun hlen => ?_, fun hlen => ?_⟩
  · obtain ⟨t, hfold, hcount, -, hnew⟩ := foldlM_push?_of_fits ws (s := s) (by omega)
    exact ⟨t, hfold, by omega, fun j hj => hnew j j.val hj (by omega)⟩
  · obtain ⟨t, hfold, hcount, -⟩ := foldlM_push?_of_fits ws (s := s) (by omega)
    rw [List.foldlM_append, hfold]
    show [w].foldlM (fun u v => push? v u) t = none
    rw [List.foldlM_cons, push?_of_full w (by omega)]
    rfl

end Sys2Proof.Machine
end

section
/-! The skips on a register (42_skips.md section 2). -/

namespace Sys2Proof.Machine

/-- Registers hold equal values where they are one register or their values are equal numbers. -/
theorem readV_eq_of_toNat_eq_or_eq {x y : Reg} {s : State} (h : (s.readV x).toNat = (s.readV y).toNat ∨ x = y) :
    s.readV x = s.readV y :=
  h.elim BitVec.eq_of_toNat_eq (congrArg s.readV)

/-- Settles O38: each of the two is a skip on its own condition, `==` or `!=` of the two registers' values. -/
theorem registerSkipsSkipExactlyOnTheirCondition : Obligations.RegisterSkipsSkipExactlyOnTheirCondition := by
  unfold Obligations.RegisterSkipsSkipExactlyOnTheirCondition
  intro x y s
  refine ⟨⟨_, exec_seVxVy x y s, fun heq => ?_, fun hne => ?_, skipIf_frame _ s⟩,
    ⟨_, exec_sneVxVy x y s, fun hne => ?_, fun heq => ?_, skipIf_frame _ s⟩⟩
  · exact skipIf_pc_of_true (beq_iff_eq.2 (readV_eq_of_toNat_eq_or_eq heq)) s
  · exact skipIf_pc_of_false (beq_eq_false_iff_ne.2 (BitVec.toNat_ne_iff_ne.1 hne)) s
  · exact skipIf_pc_of_true (bne_iff_ne.2 (BitVec.toNat_ne_iff_ne.1 hne)) s
  · exact skipIf_pc_of_false (bne_eq_false_iff_eq.2 (readV_eq_of_toNat_eq_or_eq heq)) s

end Sys2Proof.Machine
end

section
/-! What influences no step: the host's free inputs (60_exceptions.md section 3) and dead stack entries (the spec's
decision D6). And the fixed point of 70_reset_and_hazards.md section 4. -/

namespace Sys2Proof.Machine

/-! ### Keys and timers -/

/-- The state with other keys and timers: every write of the key and timer ports is one of these. -/
def State.setInputs (s : State) (keys : Vector Bool 16) (dt st : Byte) : State :=
  { s with keys := keys, dt := dt, st := st }

section
variable (s : State) (keys : Vector Bool 16) (dt st : Byte)

theorem skipIf_setInputs (c : Bool) : skipIf c (s.setInputs keys dt st) = (skipIf c s).setInputs keys dt st := by
  cases c <;> rfl

/-- No meaning reads or writes keys or timers. -/
theorem exec_setInputs (i : Instr) :
    exec i (s.setInputs keys dt st) = mapNext (fun t => t.setInputs keys dt st) (exec i s) := by
  cases i with
  | ret =>
    by_cases hsp : s.sp = 0#8
    · rw [exec_ret_of_empty hsp]
      exact exec_ret_of_empty (s := s.setInputs keys dt st) hsp
    · rw [exec_ret_of_ne hsp]
      exact exec_ret_of_ne (s := s.setInputs keys dt st) hsp
  | call nnn =>
    by_cases hsp : s.sp.toNat < 16
    · rw [exec_call_of_lt nnn hsp]
      exact exec_call_of_lt (s := s.setInputs keys dt st) nnn hsp
    · rw [exec_call_of_full nnn (Nat.not_lt.1 hsp)]
      exact exec_call_of_full (s := s.setInputs keys dt st) nnn (Nat.not_lt.1 hsp)
  | drw x y n =>
    have hrows : spriteRows? n.toNat (s.setInputs keys dt st) = spriteRows? n.toNat s := rfl
    simp only [exec, execDrw, hrows]
    cases spriteRows? n.toNat s <;> rfl
  | seVxNn | sneVxNn | seVxVy | sneVxVy => exact congrArg Host.Outcome.next (skipIf_setInputs s keys dt st _)
  | cls | jp | ldVxNn | addVxNn | ldINnn => rfl

theorem step_setInputs :
    step (s.setInputs keys dt st) = mapNext (fun t => t.setInputs keys dt st) (step s) := by
  obtain ⟨htrap, hs⟩ | ⟨hc, hpc, hs⟩ | ⟨hc, -, w, hw, hd, hs⟩ | ⟨hc, -, w, i, hw, hd, hs⟩ := step_cases s <;> rw [hs]
  · exact step_of_trapped (s := s.setInputs keys dt st) htrap
  · exact step_of_fetch_outside (s := s.setInputs keys dt st) hc hpc
  · exact step_of_unrecognized (s := s.setInputs keys dt st) hc hw hd
  · rw [← exec_setInputs]
    exact step_of_instruction (s := s.setInputs keys dt st) hc hw hd

end

theorem mapNext_congr {f g : State → State} {r : Result} (h : ∀ t, r = .next t → f t = g t) :
    mapNext f r = mapNext g r := by
  cases r with
  | next t => exact congrArg Host.Outcome.next (h t rfl)
  | fault | refused => rfl

/-- A write that replaces keys and timers by the same values before and after the step commutes with it. -/
theorem step_commutes_of_inputWrite {f : State → State} {s : State} {keys : Vector Bool 16} {dt st : Byte}
    (hf : ∀ t, SameHostInputs s t → f t = t.setInputs keys dt st) : step (f s) = mapNext f (step s) := by
  rw [hf s ⟨rfl, rfl, rfl⟩, step_setInputs]
  refine mapNext_congr fun t ht => ?_
  obtain ⟨-, hin, -⟩ := step_keeps ht
  exact (hf t hin).symm

/-- Settles O23: a step keeps keys and timers, so each of the three writes is one replacement of them. -/
theorem keysAndTimersInfluenceNoStep : Obligations.KeysAndTimersInfluenceNoStep := by
  unfold Obligations.KeysAndTimersInfluenceNoStep
  refine fun s => ⟨fun k b => ?_, fun b => ?_, fun b => ?_⟩
  · refine step_commutes_of_inputWrite (keys := s.keys.set k.val b) (dt := s.dt) (st := s.st) ?_
    rintro t ⟨hdt, hst, hkeys⟩
    rw [← hdt, ← hst, ← hkeys]
    rfl
  · refine step_commutes_of_inputWrite (keys := s.keys) (dt := b) (st := s.st) ?_
    rintro t ⟨-, hst, hkeys⟩
    rw [← hst, ← hkeys]
    rfl
  · refine step_commutes_of_inputWrite (keys := s.keys) (dt := s.dt) (st := b) ?_
    rintro t ⟨hdt, -, hkeys⟩
    rw [← hdt, ← hkeys]
    rfl

/-! ### Dead stack entries -/

section
variable {s t : State} {j : Fin 16}

theorem setStack_getElem_self : t.setStack j t.stack[j.val] = t := by
  rw [State.setStack, Vector.set_getElem_self]

theorem setStack_setStack (w v : Word) : (t.setStack j w).setStack j v = t.setStack j v := by
  simp only [State.setStack, Vector.set_set]

theorem setStack_comm {k : Fin 16} (h : j ≠ k) (w v : Word) :
    (t.setStack j w).setStack k v = (t.setStack k v).setStack j w := by
  simp only [State.setStack, Vector.set_comm _ _ (Fin.val_ne_of_ne h)]

theorem skipIf_setStack (c : Bool) (w : Word) : skipIf c (s.setStack j w) = (skipIf c s).setStack j w := by
  cases c <;> rfl

/-- A dead entry is not read: an instruction keeps what it holds, or a call overwrites it. -/
theorem exec_setStack_dead {i : Instr} (w : Word) (hj : s.sp.toNat ≤ j.val) (h : exec i s = .next t) :
    exec i (s.setStack j w) = .next (t.setStack j w) ∨ exec i (s.setStack j w) = .next t := by
  cases i with
  | ret =>
    by_cases hsp : s.sp = 0#8
    · cases (exec_ret_of_empty hsp).symm.trans h
      exact .inl (exec_ret_of_empty (s := s.setStack j w) hsp)
    · cases (exec_ret_of_ne hsp).symm.trans h
      have hpred := sp_pred_toNat hsp
      have hlt : (s.sp - 1#8).toNat < 16 := by omega
      have hentry : stackEntry (s.setStack j w) (s.sp - 1#8) = stackEntry s (s.sp - 1#8) := by
        rw [stackEntry_of_lt hlt, stackEntry_of_lt hlt]
        exact setStack_entry_of_ne (k := ⟨_, hlt⟩) (by simp only; omega) w s
      refine .inl ((exec_ret_of_ne (s := s.setStack j w) hsp).trans ?_)
      rw [State.setStack_sp, hentry]
      rfl
  | call nnn =>
    by_cases hsp : s.sp.toNat < 16
    · cases (exec_call_of_lt nnn hsp).symm.trans h
      have hcall : exec (.call nnn) (s.setStack j w) = .next ((((s.setStack j w).setStack ⟨s.sp.toNat, hsp⟩ s.pc).setSp
          (s.sp + 1#8)).setPc (addressOperand nnn)) := exec_call_of_lt (s := s.setStack j w) nnn hsp
      rw [hcall]
      by_cases heq : j = ⟨s.sp.toNat, hsp⟩
      · right
        rw [← heq, setStack_setStack]
      · left
        rw [setStack_comm heq]
        rfl
    · cases (exec_call_of_full nnn (Nat.not_lt.1 hsp)).symm.trans h
      exact .inl (exec_call_of_full (s := s.setStack j w) nnn (Nat.not_lt.1 hsp))
  | drw x y n =>
    have hrows : spriteRows? n.toNat (s.setStack j w) = spriteRows? n.toNat s := rfl
    simp only [exec, execDrw, hrows] at h ⊢
    cases hr : spriteRows? n.toNat s
    all_goals
      rw [hr] at h
      cases h
      exact .inl rfl
  | seVxNn | sneVxNn | seVxVy | sneVxVy =>
    cases h
    exact .inl (congrArg Host.Outcome.next (skipIf_setStack _ w))
  | cls | jp | ldVxNn | addVxNn | ldINnn =>
    cases h
    exact .inl rfl

theorem step_setStack_dead (w : Word) (hj : s.sp.toNat ≤ j.val) (h : step s = .next t) :
    step (s.setStack j w) = .next (t.setStack j w) ∨ step (s.setStack j w) = .next t := by
  obtain ⟨-, hs⟩ | ⟨hc, hpc, hs⟩ | ⟨hc, -, w', hw, hd, hs⟩ | ⟨hc, -, w', i, hw, hd, hs⟩ := step_cases s
  · cases hs.symm.trans h
  · cases hs.symm.trans h
    exact .inl (step_of_fetch_outside (s := s.setStack j w) hc hpc)
  · cases hs.symm.trans h
    exact .inl (step_of_unrecognized (s := s.setStack j w) hc hw hd)
  · rw [step_of_instruction (s := s.setStack j w) hc hw hd]
    exact exec_setStack_dead (s := advancePc (beginStep s)) w hj (hs.symm.trans h)

end

/-- Settles O24: in both cases writing the entry that the step gave restores its state. -/
theorem deadStackEntriesInfluenceNoStep : Obligations.DeadStackEntriesInfluenceNoStep := by
  unfold Obligations.DeadStackEntriesInfluenceNoStep
  intro s t j w hj h
  obtain hkept | hover := step_setStack_dead w hj h
  · exact ⟨_, hkept, (setStack_setStack w _).trans setStack_getElem_self⟩
  · exact ⟨_, hover, setStack_getElem_self⟩

/-! ### The finished state -/

/-- The opcode of `Finished` is the jump to the low 12 bits of `PC`, which are all of it up to 0xFFE. -/
theorem encode_jp_of_pc {w : Word} (h : w.toNat ≤ 0xFFE) : encode (.jp (w.setWidth 12)) = 0x1000#16 + w := by
  apply BitVec.eq_of_toNat_eq
  rw [encode_jp_toNat, BitVec.toNat_setWidth, BitVec.toNat_add, BitVec.toNat_ofNat]
  omega

theorem addressOperand_of_pc {w : Word} (h : w.toNat ≤ 0xFFE) : addressOperand (w.setWidth 12) = w := by
  apply BitVec.eq_of_toNat_eq
  rw [addressOperand_toNat, BitVec.toNat_setWidth]
  omega

/-- Settles O25: the jump loads the `PC` it was fetched at, so only `DIRTY` can differ. -/
theorem finishedStateIsAFixedPointUpToDirty : Obligations.FinishedStateIsAFixedPointUpToDirty := by
  unfold Obligations.FinishedStateIsAFixedPointUpToDirty
  intro s hfin
  obtain ⟨hok, hpc, hw⟩ := hfin
  refine ⟨?_, hok, hpc, hw⟩
  rw [← encode_jp_of_pc hpc] at hw
  rw [step_of_instruction (not_not.1 hok) hw (decode_encode _), exec_jp, addressOperand_of_pc hpc]
  rfl

end Sys2Proof.Machine
end

section
/-! The draw (44_display.md): XOR compositing of the visible sprite, and what follows from it for two draws and for the
cells outside the sprite. -/

namespace Sys2Proof.Machine

theorem encode_drw_toNat (x y : Reg) (n : Nibble) :
    (encode (.drw x y n)).toNat = 0xD000 + x.val * 256 + y.val * 16 + n.toNat :=
  packXYN_toNat 0xD#4 x y n

section
variable {x y : Reg} {n : Nibble} {s t : State}

theorem draw_frame (b : Byte) (d : Display) (s : State) :
    SameRegistersBut [regVF] s (((s.setV regVF b).setDisp d).setDirty true) ∧
    (((s.setV regVF b).setDisp d).setDirty true).i = s.i ∧ (((s.setV regVF b).setDisp d).setDirty true).pc = s.pc ∧
    SameStack s (((s.setV regVF b).setDisp d).setDirty true) ∧
    SameMemory s (((s.setV regVF b).setDisp d).setDirty true) ∧
    SameHostInputs s (((s.setV regVF b).setDisp d).setDirty true) ∧
    SameLatch s (((s.setV regVF b).setDisp d).setDirty true) :=
  ⟨setV_sameRegistersBut regVF b s, rfl, rfl, ⟨rfl, rfl⟩, fun _ => rfl, ⟨rfl, rfl, rfl⟩, ⟨rfl, rfl⟩⟩

/-! ### What a draw that answers `t` did -/

/-- Cells and collision flag after a draw in range. -/
theorem drw_next_spec (h : s.i.toNat + n.toNat ≤ 4096) (hexec : exec (.drw x y n) s = .next t) :
    (∀ cx cy, Display.cell t.disp cx cy = (Display.cell s.disp cx cy ^^ drawBit x y n s cx cy)) ∧
    ((t.readV regVF = 1#8 ∧ ∃ cx cy, drawBit x y n s cx cy = true ∧ Display.cell s.disp cx cy = true) ∨
     (t.readV regVF = 0#8 ∧ ¬ ∃ cx cy, drawBit x y n s cx cy = true ∧ Display.cell s.disp cx cy = true)) := by
  obtain ⟨d, hit, hdraw, hcell, hhit⟩ := exec_drw_of_fits (x := x) (y := y) h
  cases hdraw.symm.trans hexec
  have hvf : (((s.setV regVF (collisionFlag hit)).setDisp d).setDirty true).readV regVF = collisionFlag hit :=
    State.readV_setV_self s regVF _
  refine ⟨hcell, ?_⟩
  rw [hvf, ← hhit]
  cases hit with
  | true => exact .inl ⟨rfl, rfl⟩
  | false => exact .inr ⟨rfl, Bool.false_ne_true⟩

theorem drawBit_bounds {cx : Fin 64} {cy : Fin 32} (h : drawBit x y n s cx cy = true) :
    anchorColumn x s ≤ cx.val ∧ cx.val < anchorColumn x s + 8 ∧ anchorRow y s ≤ cy.val ∧
    cy.val < anchorRow y s + n.toNat := by
  by_contra hout
  rw [drawBit, spriteBit, if_neg hout] at h
  cases h

/-- The sprite's bits depend on the anchor, `I` and the memory only. -/
theorem drawBit_congr (hx : anchorColumn x t = anchorColumn x s) (hy : anchorRow y t = anchorRow y s)
    (hi : t.i = s.i) (hmem : SameMemory s t) (cx : Fin 64) (cy : Fin 32) :
    drawBit x y n t cx cy = drawBit x y n s cx cy := by
  simp only [drawBit, spriteBit, hx, hy, hi, hmem _]

/-- A draw keeps `I` and the memory, and the anchor where VF is no anchor register: a second draw has the same bits. -/
theorem drawBit_after_draw (h : s.i.toNat + n.toNat ≤ 4096) (hexec : exec (.drw x y n) s = .next t)
    (hanchor : (x ≠ regVF ∧ y ≠ regVF) ∨ (anchorColumn x t = anchorColumn x s ∧ anchorRow y t = anchorRow y s)) :
    t.i = s.i ∧ ∀ cx cy, drawBit x y n t cx cy = drawBit x y n s cx cy := by
  obtain ⟨d, hit, hdraw, -, -⟩ := exec_drw_of_fits (x := x) (y := y) h
  cases hdraw.symm.trans hexec
  obtain ⟨hv, hi, -, -, hmem, -, -⟩ := draw_frame (collisionFlag hit) d s
  obtain ⟨hx, hy⟩ | ⟨hx, hy⟩ := hanchor
  · exact ⟨hi, drawBit_congr (by rw [anchorColumn, hv x (mt List.mem_singleton.1 hx)]; rfl)
      (by rw [anchorRow, hv y (mt List.mem_singleton.1 hy)]; rfl) hi hmem⟩
  · exact ⟨hi, drawBit_congr hx hy hi hmem⟩

end

/-! ### The obligations -/

/-- Settles O43. -/
theorem drawIsXorCompositingOfTheVisibleSprite : Obligations.DrawIsXorCompositingOfTheVisibleSprite := by
  unfold Obligations.DrawIsXorCompositingOfTheVisibleSprite
  intro x y n s h
  obtain ⟨d, hit, hdraw, hcell, hhit⟩ := exec_drw_of_fits (x := x) (y := y) h
  have hvf := State.readV_setV_self s regVF (collisionFlag hit)
  refine ⟨_, hdraw, hcell, fun hcollide => hvf.trans ?_, fun hclear => hvf.trans ?_, rfl, draw_frame _ d s⟩
  · rw [hhit.2 hcollide]
    rfl
  · rw [Bool.eq_false_of_not_eq_true fun hset => hclear (hhit.1 hset)]
    rfl

/-- Settles O44. -/
theorem drawPastTheEndOfMemoryTraps : Obligations.DrawPastTheEndOfMemoryTraps := by
  unfold Obligations.DrawPastTheEndOfMemoryTraps
  intro x y n s h
  obtain ⟨hpc, hstack, hv, hi, hdisp, hdirty, hmem, hin⟩ :=
    setTrap_frame .drawSourceOutOfRange (encode (.drw x y n)) s
  exact ⟨_, exec_drw_of_outside h, rfl, encode_drw_toNat x y n, hv, hi, hpc, hstack, hdisp, hdirty, hmem, hin⟩

/-- Settles O45: both draws xor the same bits, which cancel; and a cell under a 1 bit was set between the draws exactly
where it was clear before the first. -/
theorem drawingTwiceRestoresTheDisplay : Obligations.DrawingTwiceRestoresTheDisplay := by
  unfold Obligations.DrawingTwiceRestoresTheDisplay
  intro x y n s t u hanchor h hst htu
  obtain ⟨hi, hbit⟩ := drawBit_after_draw h hst hanchor
  obtain ⟨hcell, -⟩ := drw_next_spec h hst
  obtain ⟨hcell', hflag⟩ := drw_next_spec (by rw [hi]; exact h) htu
  have hcollide : (∃ cx cy, drawBit x y n t cx cy = true ∧ Display.cell t.disp cx cy = true) ↔
      ∃ cx cy, Display.cell s.disp cx cy = false ∧ Display.cell t.disp cx cy = true := by
    refine exists_congr fun cx => exists_congr fun cy => and_congr_left fun hset => ?_
    rw [hcell] at hset
    rw [hbit]
    cases hb : drawBit x y n s cx cy <;> simpa [hb] using hset
  rw [hcollide] at hflag
  refine ⟨fun cx cy => ?_, ?_, ?_⟩
  · rw [hcell', hcell, hbit, Bool.xor_assoc, Bool.xor_self, Bool.xor_false]
  · exact hflag.symm.imp And.left And.left
  · obtain ⟨hone, hex⟩ | ⟨hzero, hno⟩ := hflag
    · exact iff_of_true hone hex
    · exact iff_of_false (by rw [hzero]; decide) hno

/-- Settles O46: a collision needs a set cell under a 1 bit, and a change needs a 1 bit; both lie in the sprite's
columns and rows. -/
theorem drawReportsAndChangesOnlyUnderTheSprite : Obligations.DrawReportsAndChangesOnlyUnderTheSprite := by
  unfold Obligations.DrawReportsAndChangesOnlyUnderTheSprite
  intro x y n s t h hexec
  obtain ⟨hcell, hflag⟩ := drw_next_spec h hexec
  refine ⟨fun hclear => ?_, fun cx cy hne => ?_⟩
  · obtain ⟨-, cx, cy, hbit, hset⟩ | ⟨hzero, -⟩ := hflag
    · obtain ⟨hx, hx', hy, hy'⟩ := drawBit_bounds hbit
      cases (hclear cx cy hx hx' hy hy').symm.trans hset
    · exact hzero
  · refine drawBit_bounds (Bool.eq_true_of_not_eq_false fun hbit => hne ?_)
    rw [hcell, hbit, Bool.xor_false]

end Sys2Proof.Machine
end
